-- ==== Sys2Proof/Word.lean ====
section
/-! DEFINITION. The word types of WYE-64: the 64-bit data word, the 32-bit command word, the memory byte,
and the two register indexes. -/

namespace Sys2Proof

/-- A 64-bit value: every register value, operand and result of the block (00_scope.md R1). -/
abbrev Word := BitVec 64

/-- A command word `w = v[31:0]` (30_encoding.md R52). -/
abbrev CmdWord := BitVec 32

/-- One byte of engine memory (20_memory.md R33). -/
abbrev Byte := BitVec 8

/-- The index of a general register X0..X15. Every value of a 4-bit field names one (10_state.md R15,
30_encoding.md R54). -/
abbrev Reg := Fin 16

/-- The index of a secret register SECRET0..SECRET3 (10_state.md R25). -/
abbrev SecretIdx := Fin 4

end Sys2Proof
end

