-- ==== Sys2Proof/Config.lean ====
section
/-! DEFINITION. What a platform fixes: the OPEN parameters of 00_scope.md R2 as plain data, the one platform that
State.reset assumes, and the free value that stands for every value the spec leaves unconstrained. -/

namespace Sys2Proof

/-- A run of `size` admitted byte addresses from `base` on. MEM_ADMIT is a list of these (log 5). -/
structure Region where
  base : Nat
  size : Nat
deriving DecidableEq, Repr

/-- The OPEN parameters of 00_scope.md R2. A state carries them, no step changes them, and a claim about every
state is a claim about every value of them (20_memory.md R37, R42). -/
structure Config where
  /-- ADDR_W, the width of an engine memory address, 1 to 64. -/
  addrW         : Nat
  /-- ENGINE_BASE, the host address of the register window, 256-byte aligned. -/
  engineBase    : Nat
  /-- MEM_ADMIT: the byte addresses the read port may read, as the union of these regions. -/
  memAdmit      : List Region
  /-- DEFAULT_SECRET[0..3], the reset value of SECRET0..SECRET3. -/
  defaultSecret : Vector Word 4
deriving DecidableEq, Repr

namespace Config

/-- DEFAULT_SECRET candidate A of 92_eei_decisions.md D5 (general knowledge, not in the source). -/
def secretA : Vector Word 4 :=
  #v[0xa0761d6478bd642f, 0xe7037ed1a0b428db, 0x8ebc6af09c88c6e3, 0x589965cc75374cc3]

/-- DEFAULT_SECRET candidate B of 92_eei_decisions.md D5 (general knowledge, not in the source). -/
def secretB : Vector Word 4 :=
  #v[0x2d358dccaa6c78a5, 0x8bb84b93962eacc9, 0x4b33a62ed433d4a3, 0x4d5a2da51de1aa47]

/-- DESIGN CHOICE (log 4, unsafe for a claim about State.reset alone): the platform of State.reset. ADDR_W is
the spec's default; the window stands at 0; every byte is admitted; DEFAULT_SECRET is candidate A. -/
def platform : Config where
  addrW := 64
  engineBase := 0
  memAdmit := [⟨0, 2 ^ 64⟩]
  defaultSecret := secretA

/-- The values the spec leaves unconstrained (20_memory.md R47; 93_implementation_defined.md U8, U18): the n-th
value drawn is `freeValue n`. It has no body, so whatever is proved holds for every choice of it (log 10). -/
opaque freeValue : Nat → BitVec 64

end Config

end Sys2Proof
end

