-- ==== Sys2Proof/Syntax.lean ====
section
/-! DEFINITION. The commands of the WYE-64 command set, version 1: one constructor per row of the opcode table,
operands in the assembler's order (30_encoding.md R55, R58). -/

namespace Sys2Proof

/-- A WYE-64 command. Its operands are register indexes and nothing else (30_encoding.md R54). -/
inductive Instr where
  /-- `NOP` (R65). -/
  | nop
  /-- `MUM xlo, xhi, xa, xb` (R66). -/
  | mum (xlo xhi xa xb : Reg)
  /-- `MIX xd, xa, xb` (R67). -/
  | mix (xd xa xb : Reg)
  /-- `XOR xd, xa, xb` (R68). -/
  | xor (xd xa xb : Reg)
  /-- `RD8 xd, xaddr` (R74). -/
  | rd8 (xd xaddr : Reg)
  /-- `RD4 xd, xaddr` (R75). -/
  | rd4 (xd xaddr : Reg)
  /-- `RD3 xd, xaddr, xk` (R76). -/
  | rd3 (xd xaddr xk : Reg)
  /-- `HASH xd, xaddr, xlen, xseed` (R90). -/
  | hash (xd xaddr xlen xseed : Reg)
deriving DecidableEq, Repr

end Sys2Proof
end

