-- ==== Sys2Proof/WellFormed.lean ====
section
/-! DEFINITION. What a well-formed command and a well-formed platform are. A host access has its own check,
`Machine.accessOffset` (20_memory.md R44), beside the host port. -/

namespace Sys2Proof

/-- The registers a command names, in the assembler's order (30_encoding.md R58). -/
def Instr.regs : Instr → List Reg
  | .nop => []
  | .mum xlo xhi xa xb => [xlo, xhi, xa, xb]
  | .mix xd xa xb => [xd, xa, xb]
  | .xor xd xa xb => [xd, xa, xb]
  | .rd8 xd xaddr => [xd, xaddr]
  | .rd4 xd xaddr => [xd, xaddr]
  | .rd3 xd xaddr xk => [xd, xaddr, xk]
  | .hash xd xaddr xlen xseed => [xd, xaddr, xlen, xseed]

/-- Every operand names one of the 16 registers. The bound is in the type `Reg`, so every command that can be
written down is well formed, as 30_encoding.md R54 says of every field value (log 21). -/
def Instr.wellFormed (i : Instr) : Bool := i.regs.all (fun r => decide (r.val < 16))

/-- The bounds 00_scope.md R2 puts on a platform's parameters: 1 ≤ ADDR_W ≤ 64, and ENGINE_BASE is 256-byte
aligned. -/
def Config.wellFormed (c : Config) : Bool :=
  decide (1 ≤ c.addrW) && decide (c.addrW ≤ 64) && decide (c.engineBase % 256 = 0)

end Sys2Proof
end

