-- ==== Sys2Proof/Decode.lean ====
section
/-! DEFINITION. The decoder of 30_encoding.md R56, total on every 64-bit CMD value and rejecting by name; after it
the encoder, written from the bit patterns of R55. -/

namespace Sys2Proof

/-- The four formats of 30_encoding.md R53. -/
inductive Format where
  | n | r2 | r3 | r4
deriving DecidableEq, Repr

/-- The eight opcodes of the opcode map (30_encoding.md R55). -/
inductive Opcode where
  | nop | mum | mix | xor | rd8 | rd4 | rd3 | hash
deriving DecidableEq, Repr

/-- Why a CMD value is no command. Every reason is the one fault ILLEGAL (30_encoding.md R56, R57). -/
inductive Reject where
  /-- `v[63:32] ≠ 0`. -/
  | highHalf
  /-- `op` is none of the eight of the map. -/
  | unmappedOp
  /-- `z ≠ 0`. -/
  | reservedZ
  /-- A register field that the format does not use is not 0. -/
  | unusedField
deriving DecidableEq, Repr

/-- The `op` byte of each command (30_encoding.md R55). -/
def Opcode.code : Opcode → BitVec 8
  | .nop => 0x00
  | .mum => 0x01
  | .mix => 0x02
  | .xor => 0x03
  | .rd8 => 0x10
  | .rd4 => 0x11
  | .rd3 => 0x12
  | .hash => 0x20

/-- The format of each command (30_encoding.md R53, R55). -/
def Opcode.format : Opcode → Format
  | .nop => .n
  | .mum => .r4
  | .mix => .r3
  | .xor => .r3
  | .rd8 => .r2
  | .rd4 => .r2
  | .rd3 => .r3
  | .hash => .r4

/-- The opcode map read from the left: the command whose `op` byte this is. -/
def opcodeOf (b : BitVec 8) : Option Opcode :=
  if b = 0x00 then some .nop
  else if b = 0x01 then some .mum
  else if b = 0x02 then some .mix
  else if b = 0x03 then some .xor
  else if b = 0x10 then some .rd8
  else if b = 0x11 then some .rd4
  else if b = 0x12 then some .rd3
  else if b = 0x20 then some .hash
  else none

/-- `op = w[31:24]` (30_encoding.md R52). -/
def fieldOp (w : CmdWord) : BitVec 8 := w.extractLsb' 24 8
/-- `rd = w[23:20]`. -/
def fieldRd (w : CmdWord) : BitVec 4 := w.extractLsb' 20 4
/-- `ra = w[19:16]`. -/
def fieldRa (w : CmdWord) : BitVec 4 := w.extractLsb' 16 4
/-- `rb = w[15:12]`. -/
def fieldRb (w : CmdWord) : BitVec 4 := w.extractLsb' 12 4
/-- `rc = w[11:8]`. -/
def fieldRc (w : CmdWord) : BitVec 4 := w.extractLsb' 8 4
/-- `z = w[7:0]`, reserved. -/
def fieldZ (w : CmdWord) : BitVec 8 := w.extractLsb' 0 8

/-- The register a 4-bit field names: every value names one (30_encoding.md R54). -/
def regOf (f : BitVec 4) : Reg := f.toFin

/-- The register fields a format does not use are 0 (30_encoding.md R53). -/
def Format.unusedZero (f : Format) (w : CmdWord) : Bool :=
  match f with
  | .n => fieldRd w == 0 && fieldRa w == 0 && fieldRb w == 0 && fieldRc w == 0
  | .r2 => fieldRb w == 0 && fieldRc w == 0
  | .r3 => fieldRc w == 0
  | .r4 => true

/-- The command of an opcode with its register fields put where 30_encoding.md R58 puts them: MUM's second
operand is `rc`. -/
def Opcode.build (o : Opcode) (rd ra rb rc : Reg) : Instr :=
  match o with
  | .nop => .nop
  | .mum => .mum rd rc ra rb
  | .mix => .mix rd ra rb
  | .xor => .xor rd ra rb
  | .rd8 => .rd8 rd ra
  | .rd4 => .rd4 rd ra
  | .rd3 => .rd3 rd ra rb
  | .hash => .hash rd ra rb rc

/-- The command a 32-bit command word holds (30_encoding.md R56). -/
def decodeWord (w : CmdWord) : Except Reject Instr :=
  match opcodeOf (fieldOp w) with
  | none => .error .unmappedOp
  | some o =>
    if fieldZ w ≠ 0 then .error .reservedZ
    else if o.format.unusedZero w then
      .ok (o.build (regOf (fieldRd w)) (regOf (fieldRa w)) (regOf (fieldRb w)) (regOf (fieldRc w)))
    else .error .unusedField

/-- The command a 64-bit CMD value holds: the upper half must be 0 (30_encoding.md R52, R56). -/
def decode (v : Word) : Except Reject Instr :=
  if v.extractLsb' 32 32 = 0 then decodeWord (v.extractLsb' 0 32) else .error .highHalf

/-- One row of the opcode map as the table prints it, with its match and mask (30_encoding.md R55). -/
structure MapRow where
  opcode : Opcode
  value  : CmdWord
  mask   : CmdWord
deriving DecidableEq, Repr

/-- "A word selects a row when `(w & mask) == match`" (30_encoding.md R55). -/
def MapRow.selects (r : MapRow) (w : CmdWord) : Bool := w &&& r.mask == r.value

/-- The opcode map of 30_encoding.md R55, its match and mask columns. -/
def opcodeMap : List MapRow := [
  ⟨.nop,  0x00000000, 0xFFFFFFFF⟩,
  ⟨.mum,  0x01000000, 0xFF0000FF⟩,
  ⟨.mix,  0x02000000, 0xFF000FFF⟩,
  ⟨.xor,  0x03000000, 0xFF000FFF⟩,
  ⟨.rd8,  0x10000000, 0xFF00FFFF⟩,
  ⟨.rd4,  0x11000000, 0xFF00FFFF⟩,
  ⟨.rd3,  0x12000000, 0xFF000FFF⟩,
  ⟨.hash, 0x20000000, 0xFF0000FF⟩]

/-- The opcode of a command. -/
def Instr.opcode : Instr → Opcode
  | .nop => .nop
  | .mum _ _ _ _ => .mum
  | .mix _ _ _ => .mix
  | .xor _ _ _ => .xor
  | .rd8 _ _ => .rd8
  | .rd4 _ _ => .rd4
  | .rd3 _ _ _ => .rd3
  | .hash _ _ _ _ => .hash

/-- The bits a register index puts into a field. -/
def regBits (r : Reg) : BitVec 4 := BitVec.ofFin r

/-- The fields laid out as the diagram of 30_encoding.md R52 lays them: op, rd, ra, rb, rc, z. -/
def layout (op : BitVec 8) (rd ra rb rc : BitVec 4) (z : BitVec 8) : CmdWord :=
  op ++ rd ++ ra ++ rb ++ rc ++ z

/-- The word of a command, from the bit patterns of 30_encoding.md R55. -/
def encodeWord : Instr → CmdWord
  | .nop => layout 0b00000000 0 0 0 0 0
  | .mum xlo xhi xa xb => layout 0b00000001 (regBits xlo) (regBits xa) (regBits xb) (regBits xhi) 0
  | .mix xd xa xb => layout 0b00000010 (regBits xd) (regBits xa) (regBits xb) 0 0
  | .xor xd xa xb => layout 0b00000011 (regBits xd) (regBits xa) (regBits xb) 0 0
  | .rd8 xd xaddr => layout 0b00010000 (regBits xd) (regBits xaddr) 0 0 0
  | .rd4 xd xaddr => layout 0b00010001 (regBits xd) (regBits xaddr) 0 0 0
  | .rd3 xd xaddr xk => layout 0b00010010 (regBits xd) (regBits xaddr) (regBits xk) 0 0
  | .hash xd xaddr xlen xseed =>
    layout 0b00100000 (regBits xd) (regBits xaddr) (regBits xlen) (regBits xseed) 0

/-- The 64-bit CMD value of a command: its word in the low half (30_encoding.md R52, R60). -/
def encode (i : Instr) : Word := (0#32 : BitVec 32) ++ encodeWord i

/-- The CMD value whose low `nbits` bits are `w`'s and whose other bits are 0, where that is 64 bits or fewer. -/
def tableValue (nbits w : Nat) : Option Word :=
  if w % 2 ^ nbits < 2 ^ 64 then some (BitVec.ofNat 64 (w % 2 ^ nbits)) else none

/-- What the decoder reads from an instruction whose bits are `w`, numbered as the opcode table numbers them. A
command is one word in the low half of one CMD write, so no byte order enters (30_encoding.md R60). -/
def decodeTableWord (nbits w : Nat) : Option Instr :=
  match tableValue nbits w with
  | none => none
  | some v =>
    match decode v with
    | .ok i => some i
    | .error _ => none

end Sys2Proof
end

