-- ==== Sys2Proof/Machine/State.lean ====
section
/-! DEFINITION. The state of WYE-64 as plain data, the turns that host, engine and platform take, the ways a step
can stop, and the state after reset. -/

namespace Sys2Proof.Machine

/-- Engine memory (20_memory.md R33) as the bytes that differ from what an unlisted address reads as, addresses
strictly rising (log 6). -/
abbrev Memory := List Host.Cell

/-- The fault causes of 60_exceptions.md R91. The reserved codes 5..15 are never recorded and have no constructor
(93_implementation_defined.md U5). -/
inductive Cause where
  | illegal | operand | range | bus
deriving DecidableEq, Repr

/-- The fields of STATUS (10_state.md R22). `cause = none` is code 0, no fault (log 22). -/
structure Status where
  busy  : Bool
  done  : Bool
  err   : Bool
  ovr   : Bool
  cause : Option Cause
deriving DecidableEq, Repr

/-- The stages of the HASH pipeline (10_state.md R26). -/
inductive Phase where
  | init | short | bulk48 | fold | tail16 | last16 | final
deriving DecidableEq, Repr

/-- The pipeline's hidden registers (10_state.md R26). While the rows of one commit run, PTR is an exact number; in
`State` it has ADDR_W bits, `pipe.ptr < 2 ^ config.addrW` (`latchPipe`; log 8). -/
structure Pipeline where
  phase : Phase
  see   : Word
  see1  : Word
  see2  : Word
  ptr   : Nat
  rem   : Word
  a     : Word
  b     : Word
deriving DecidableEq, Repr

/-- A host step (10_state.md R14). Addresses of window accesses are addresses of the host's own space,
unbounded numbers (log 17). -/
inductive HostOp where
  /-- A read of `width` bytes at host address `addr`; aligned 64-bit inside the window or refused (20_memory.md R44). -/
  | read (addr width : Nat)
  /-- A write of `width` bytes at host address `addr` (20_memory.md R44). -/
  | write (addr width : Nat) (value : Word)
  /-- `POLL`: read STATUS until BUSY = 0 (30_encoding.md R59). -/
  | poll
  /-- `MemWrite(addr, n, bytes)` that reaches the read port at once (20_memory.md R45). -/
  | memWrite (addr : Nat) (bytes : List Byte)
  /-- A read of `n` bytes of engine memory by the host (20_memory.md R33, log 15). -/
  | memRead (addr n : Nat)
  /-- A `MemWrite` that the host platform holds back in its own buffers (20_memory.md R46, log 11). -/
  | postWrite (addr : Nat) (bytes : List Byte)
  /-- One held-back write reaches memory, the one in place `k`, the oldest being in place 0: the platform may let them
  arrive in any order (20_memory.md R46, log 24). -/
  | drain (k : Nat)
deriving DecidableEq, Repr

/-- Whose turn it is. A schedule is a list of turns: any finite interleaving (10_state.md R14, R30; log 1). -/
inductive Turn where
  /-- The host takes this step. -/
  | host (op : HostOp)
  /-- The engine takes its one step, the commit (10_state.md R29). -/
  | engine
  /-- The platform asserts the hardware reset (70_reset_and_hazards.md R102; log 16). -/
  | reset
deriving DecidableEq, Repr

/-- What a host read returned. -/
inductive Observation where
  | reg (value : Word)
  | mem (bytes : List Byte)
deriving DecidableEq, Repr

/-- `n` bytes of memory from `addr` on. -/
structure Span where
  addr : Nat
  n    : Nat
deriving DecidableEq, Repr

/-- A host memory write still in the host platform's buffers. -/
structure PostedWrite where
  addr  : Nat
  bytes : List Byte
deriving DecidableEq, Repr

/-- How a step stops with no next state. Both say that the engine has no enabled step; both are safe. -/
inductive Fault where
  /-- The schedule is empty and BUSY = 0: the engine is quiescent, it has no enabled step (60_exceptions.md R100,
  70_reset_and_hazards.md R109). Raised by `step`. Safe: the machine stops where no agent moves. -/
  | quiescent
  /-- The schedule gives the engine a turn while BUSY = 0: an idle engine simply has no step (60_exceptions.md
  R100). Raised by `step`. Safe: such a schedule is no run of the machine. -/
  | engineIdle
deriving DecidableEq, Repr

/-- What the model gives no meaning to. -/
inductive Refusal where
  /-- An instruction with no meaning yet; raised only by an arm of `exec`. Safe. -/
  | notModelled (mnemonic : String)
  /-- A host window access that is narrower, wider, misaligned or outside the window (20_memory.md R44,
  93_implementation_defined.md U7). Raised by a host turn. Safe: the spec says the model refuses it. -/
  | windowAccess
  /-- A host memory access to bytes outside engine memory (20_memory.md R33, log 13). Raised by a host turn.
  Safe: the spec gives no such access. -/
  | outsideMemory
deriving DecidableEq, Repr

/-- The state of the machine: everything the spec gives it, and the model's own bookkeeping of who moves next,
what the host saw, and which host writes race with the running command. -/
structure State where
  /-- The platform's parameters (00_scope.md R2). No step changes them. -/
  config     : Config
  /-- X0..X15 (10_state.md R15). -/
  x          : Vector Word 16
  /-- SECRET0..SECRET3 (10_state.md R25). -/
  secret     : Vector Word 4
  /-- STATUS (10_state.md R22). -/
  status     : Status
  /-- FAULT_ADDR (10_state.md R23). -/
  faultAddr  : Word
  /-- FAULT_CMD (10_state.md R23). -/
  faultCmd   : Word
  /-- CUR, the accepted CMD value (10_state.md R26). -/
  cur        : Word
  /-- SNAPX[0..15] (10_state.md R26). -/
  snapX      : Vector Word 16
  /-- SNAPS[0..3] (10_state.md R26). -/
  snapS      : Vector Word 4
  /-- PHASE, SEE, SEE1, SEE2, PTR, REM, A, B (10_state.md R26; PTR below `2 ^ config.addrW`, log 8). -/
  pipe       : Pipeline
  /-- Engine memory (20_memory.md R33). -/
  mem        : Memory
  /-- MODEL's own: the turns still to be taken, next first (log 1). -/
  schedule   : List Turn
  /-- MODEL's own: what the host's reads returned, newest first (log 12). -/
  observed   : List Observation
  /-- MODEL's own: host memory writes not yet at the read port, oldest first (log 11). -/
  undrained  : List PostedWrite
  /-- MODEL's own: memory the host wrote since the running command was accepted, newest first (log 11). -/
  busyWrites : List Span
  /-- MODEL's own: how many free values have been drawn (log 10). -/
  freeIdx    : Nat
deriving DecidableEq, Repr

/-- STATUS = 0. -/
def Status.zero : Status := ⟨false, false, false, false, none⟩

/-- The pipeline registers at reset. DESIGN CHOICE (log 7, unsafe): the spec leaves them unspecified and
unobservable (10_state.md R26). -/
def Pipeline.zero : Pipeline := ⟨.init, 0, 0, 0, 0, 0, 0, 0⟩

/-- A platform `c` right after power-on and hardware reset (70_reset_and_hazards.md R102; hidden registers log 7,
memory log 6, the model's own fields empty). -/
def State.powerOn (c : Config) : State where
  config := c
  x := Vector.replicate 16 0
  secret := c.defaultSecret
  status := Status.zero
  faultAddr := 0
  faultCmd := 0
  cur := 0
  snapX := Vector.replicate 16 0
  snapS := Vector.replicate 4 0
  pipe := Pipeline.zero
  mem := []
  schedule := []
  observed := []
  undrained := []
  busyWrites := []
  freeIdx := 0

/-- The machine right after reset, on the platform of log 4. -/
def State.reset : State := State.powerOn Config.platform

end Sys2Proof.Machine
end

