-- ==== Sys2Proof/Machine/Flags.lean ====
section
/-! DEFINITION. STATUS: its layout as a register, and the one update of it for each event of the command life
cycle (10_state.md R22, R27, R29; 60_exceptions.md R94, R95). The block has no arithmetic flag (10_state.md R19). -/

namespace Sys2Proof.Machine

/-- The STATUS.CAUSE code of a cause (60_exceptions.md R91). -/
def causeCode : Option Cause → BitVec 4
  | none => 0
  | some .illegal => 1
  | some .operand => 2
  | some .range => 3
  | some .bus => 4

/-- STATUS as the host reads it: CAUSE in bits 11:8, OVR, ERR, DONE, BUSY in bits 3 to 0, every other bit 0
(10_state.md R22). -/
def statusWord (t : Status) : Word :=
  (0#52 : BitVec 52) ++ causeCode t.cause ++ (0#4 : BitVec 4) ++
    BitVec.ofBool t.ovr ++ BitVec.ofBool t.err ++ BitVec.ofBool t.done ++ BitVec.ofBool t.busy

/-- A command is accepted: BUSY set, DONE cleared (10_state.md R27). -/
def statusAccept (t : Status) : Status := { t with busy := true, done := false }

/-- A command commits without a fault: BUSY cleared, DONE set (10_state.md R29; with ERR = 1, which no run reaches,
log 23). -/
def statusCommit (t : Status) : Status := { t with busy := false, done := true }

/-- A command commits with a fault; OVR keeps its value (60_exceptions.md R94). -/
def statusFault (c : Cause) (t : Status) : Status :=
  { t with busy := false, done := false, err := true, cause := some c }

/-- A host write was ignored: the sticky OVR is set (10_state.md R27, R31). -/
def statusOverrun (t : Status) : Status := { t with ovr := true }

/-- CTRL.CLR: DONE, ERR, OVR and CAUSE cleared, BUSY as it was (60_exceptions.md R95). -/
def statusClear (t : Status) : Status :=
  { t with done := false, err := false, ovr := false, cause := none }

end Sys2Proof.Machine
end

