-- ==== Sys2Proof/Machine/Ops.lean ====
section
/-! DEFINITION. The operations every command and every turn shares: engine memory and its byte order, the read
port's check, the race with host writes, the commit, the fault and the return from it, and the resets. -/

namespace Sys2Proof.Machine

/-! ### Engine memory -/

/-- What an address that memory does not list reads as. DESIGN CHOICE (log 6, unsafe): the spec gives engine memory
no contents at power-on. -/
def Memory.unlisted : Byte := 0

/-- The byte at an address (20_memory.md R36). -/
def Memory.byteAt : Memory → Nat → Byte
  | [], _ => Memory.unlisted
  | (k, b) :: m, a => if a = k then b else Memory.byteAt m a

/-- Memory with one byte replaced, in the canonical form. -/
def Memory.put : Memory → Nat → Byte → Memory
  | [], a, b => if b = Memory.unlisted then [] else [(a, b)]
  | (k, c) :: m, a, b =>
    if a < k then (if b = Memory.unlisted then (k, c) :: m else (a, b) :: (k, c) :: m)
    else if a = k then (if b = Memory.unlisted then m else (a, b) :: m)
    else (k, c) :: Memory.put m a b

/-- `MemWrite`: the bytes go to `addr, addr+1, …` in order (20_memory.md R45). -/
def Memory.putBytes : Memory → Nat → List Byte → Memory
  | m, _, [] => m
  | m, a, b :: bs => Memory.putBytes (Memory.put m a b) (a + 1) bs

/-- The canonical form from address `lo` on: addresses at least `lo` and strictly rising, no listed byte equal to
what an unlisted address reads as. -/
def Memory.wfFrom : Nat → Memory → Bool
  | _, [] => true
  | lo, (k, b) :: m => decide (lo ≤ k) && (b != Memory.unlisted) && Memory.wfFrom (k + 1) m

/-- The canonical form of memory. -/
def Memory.wf (m : Memory) : Bool := Memory.wfFrom 0 m

/-- `MemRead(addr, n)`: the n bytes from `addr` on, in ascending address order (00_scope.md R10, 20_memory.md R36). -/
def memRead (m : Memory) (addr n : Nat) : List Byte :=
  (List.range n).map (fun i => Memory.byteAt m (addr + i))

/-- `LE_n`: the first byte in memory order is the least significant (00_scope.md R11, 20_memory.md R38). -/
def littleEndian : List Byte → Nat
  | [] => 0
  | b :: bs => b.toNat + 2 ^ 8 * littleEndian bs

/-! ### The read port -/

/-- A region holds a byte address. -/
def regionHolds (r : Region) (b : Nat) : Bool := decide (r.base ≤ b) && decide (b < r.base + r.size)

/-- MEM_ADMIT(b) (20_memory.md R37). -/
def admits (c : Config) (b : Nat) : Bool := c.memAdmit.any (fun r => regionHolds r b)

/-- The lowest address in `[b, e)` that no region holds: from an admitted address it goes on at the end of a region
that holds it, so one look at each region is enough. -/
def firstGap (rs : List Region) : Nat → Nat → Nat → Option Nat
  | 0, b, e => if b < e then some b else none
  | fuel + 1, b, e =>
    if b < e then
      match rs.find? (fun r => regionHolds r b) with
      | none => some b
      | some r => firstGap rs fuel (r.base + r.size) e
    else none

/-- The lowest non-admitted byte of `[addr, addr + n)`, if there is one. -/
def lowestBad (c : Config) (addr n : Nat) : Option Nat :=
  firstGap c.memAdmit c.memAdmit.length addr (addr + n)

/-- `Check(addr, n)`: no fault, or RANGE at the access's start, or BUS at its lowest non-admitted byte
(20_memory.md R35). An access that ends exactly at 2^ADDR_W passes, also HASH's of 2^64 - 1 bytes from address 1, where
a corner case of 42_hash_pipeline.md R90 says otherwise: the model follows the pseudocode (log 25, DEDUCED). -/
def checkAccess (c : Config) (addr : Word) (n : Nat) : Option (Cause × Word) :=
  if addr.toNat + n > 2 ^ c.addrW then some (.range, addr)
  else
    match lowestBad c addr.toNat n with
    | some b => some (.bus, BitVec.ofNat 64 b)
    | none => none

/-! ### Races with host writes to memory -/

/-- Two runs of bytes have a byte in common. -/
def overlaps (a n b k : Nat) : Bool :=
  decide (a < b + k) && decide (b < a + n) && decide (0 < n) && decide (0 < k)

/-- The host wrote a byte of `[addr, addr + n)` after the running command was accepted (20_memory.md R47), or holds
a write to one back in its platform's buffers (20_memory.md R46, 93_implementation_defined.md U18). -/
def raced (s : State) (addr n : Nat) : Bool :=
  s.busyWrites.any (fun w => overlaps addr n w.addr w.n) ||
    s.undrained.any (fun w => overlaps addr n w.addr w.bytes.length)

/-- One more free value has been drawn (log 10). -/
def drawn (k : Nat) (s : State) : State := { s with freeIdx := s.freeIdx + k }

/-! ### Commit, fault, and the return from a fault -/

/-- The destinations of a command are written in the order of its list (10_state.md R29). -/
def writeRegs (x : Vector Word 16) : List (Reg × Word) → Vector Word 16
  | [] => x
  | (r, v) :: ws => writeRegs (x.set r v) ws

/-- The commit of a command that raises no fault: `Ok(writes)` (10_state.md R29). -/
def commitOk (writes : List (Reg × Word)) (s : State) : State :=
  { s with x := writeRegs s.x writes, status := statusCommit s.status, busyWrites := [] }

/-- TAKING A FAULT: the commit of a command that raises `Fault(cause, addr)` (60_exceptions.md R94). No X and no
SECRET register is written; FAULT_CMD takes CUR. -/
def recordFault (c : Cause) (addr : Word) (s : State) : State :=
  { s with status := statusFault c s.status, faultAddr := addr, faultCmd := s.cur, busyWrites := [] }

/-- THE RETURN FROM A FAULT: a CTRL write with CLR = 1 and SRST = 0 (60_exceptions.md R95). -/
def clearFault (s : State) : State :=
  { s with status := statusClear s.status, faultAddr := 0, faultCmd := 0 }

/-- The commit of a command that read `[addr, addr + n)` and computed `v` for its one destination: a raced read
leaves the destination any value at all (20_memory.md R47). -/
def commitLoad (rd : Reg) (addr n : Nat) (v : Word) (s : State) : State :=
  if raced s addr n then commitOk [(rd, Config.freeValue s.freeIdx)] (drawn 1 s)
  else commitOk [(rd, v)] s

/-! ### Acceptance and reset -/

/-- A CMD write is accepted: CUR and the snapshots are latched, BUSY set, DONE cleared (10_state.md R27). -/
def acceptCommand (v : Word) (s : State) : State :=
  { s with cur := v, snapX := s.x, snapS := s.secret, status := statusAccept s.status, busyWrites := [] }

/-- The state of 70_reset_and_hazards.md R102, by a hardware or a soft reset: a running command is abandoned without
a commit, and memory and everything outside the engine stay as they are. Hidden registers: log 7. -/
def resetEngine (s : State) : State :=
  { s with
    x := Vector.replicate 16 0
    secret := s.config.defaultSecret
    status := Status.zero
    faultAddr := 0
    faultCmd := 0
    cur := 0
    snapX := Vector.replicate 16 0
    snapS := Vector.replicate 4 0
    pipe := Pipeline.zero
    busyWrites := [] }

end Sys2Proof.Machine
end

