-- ==== Sys2Proof/Machine/Operands.lean ====
section
/-! DEFINITION. The one operand form, a register index: a source is read from the snapshot of acceptance
(10_state.md R28), and a command's destinations and the bytes it reads are what its rule names. -/

namespace Sys2Proof.Machine

/-- The value of a source register: SNAPX, the value at acceptance (10_state.md R28). -/
def source (s : State) (r : Reg) : Word := s.snapX[r]

/-- The registers a command writes when it commits without a fault (30_encoding.md R58). -/
def dests : Instr → List Reg
  | .nop => []
  | .mum xlo xhi _ _ => [xlo, xhi]
  | .mix xd _ _ => [xd]
  | .xor xd _ _ => [xd]
  | .rd8 xd _ => [xd]
  | .rd4 xd _ => [xd]
  | .rd3 xd _ _ => [xd]
  | .hash xd _ _ _ => [xd]

/-- The bytes a command reads, as a run from its address (70_reset_and_hazards.md R107). A command that reads no
memory has a run of no bytes. -/
def readSpan (s : State) : Instr → Span
  | .nop => ⟨0, 0⟩
  | .mum _ _ _ _ => ⟨0, 0⟩
  | .mix _ _ _ => ⟨0, 0⟩
  | .xor _ _ _ => ⟨0, 0⟩
  | .rd8 _ xaddr => ⟨(source s xaddr).toNat, 8⟩
  | .rd4 _ xaddr => ⟨(source s xaddr).toNat, 4⟩
  | .rd3 _ xaddr xk => ⟨(source s xaddr).toNat, (source s xk).toNat⟩
  | .hash _ xaddr xlen _ => ⟨(source s xaddr).toNat, (source s xlen).toNat⟩

end Sys2Proof.Machine
end

