-- ==== Sys2Proof/Machine/ByteReader.lean ====
section
/-! DEFINITION. The byte reader (41_byte_reader.md): the functions `rd8`, `rd4` and `rd3`, and the commands RD8, RD4
and RD3. The one addressing mode is register direct (R73), with no alignment rule (20_memory.md R40). -/

namespace Sys2Proof.Machine

/-- `rd8(p)`: 8 bytes, little-endian (R69). -/
def rd8 (m : Memory) (p : Nat) : Word := BitVec.ofNat 64 (littleEndian (memRead m p 8))

/-- `rd4(p)`: 4 bytes, little-endian, zero-extended (R70). -/
def rd4 (m : Memory) (p : Nat) : Word := BitVec.ofNat 64 (littleEndian (memRead m p 4))

/-- `rd3(p, k)`: the first, the middle and the last byte of a k-byte buffer, the first most significant
(R71; 90_conflicts.md C3; log 18). -/
def rd3 (m : Memory) (p k : Nat) : Word :=
  ((Memory.byteAt m p).setWidth 64 <<< 16) |||
    ((Memory.byteAt m (p + k / 2)).setWidth 64 <<< 8) |||
    (Memory.byteAt m (p + k - 1)).setWidth 64

/-- RD8: `Check(p, 8)`, then `rd8(p)` (R74). -/
def execRd8 (xd xaddr : Reg) (s : State) : Host.Outcome State Fault Refusal :=
  let p := source s xaddr
  match checkAccess s.config p 8 with
  | some (c, b) => .next (recordFault c b s)
  | none => .next (commitLoad xd p.toNat 8 (rd8 s.mem p.toNat) s)

/-- RD4: `Check(p, 4)`, then `rd4(p)` (R75). -/
def execRd4 (xd xaddr : Reg) (s : State) : Host.Outcome State Fault Refusal :=
  let p := source s xaddr
  match checkAccess s.config p 4 with
  | some (c, b) => .next (recordFault c b s)
  | none => .next (commitLoad xd p.toNat 4 (rd4 s.mem p.toNat) s)

/-- RD3: OPERAND unless k is 1, 2 or 3, then `Check(p, k)`, then `rd3(p, k)` (R76). -/
def execRd3 (xd xaddr xk : Reg) (s : State) : Host.Outcome State Fault Refusal :=
  let p := source s xaddr
  let k := (source s xk).toNat
  if k = 0 ∨ k > 3 then .next (recordFault .operand 0 s)
  else
    match checkAccess s.config p k with
    | some (c, b) => .next (recordFault c b s)
    | none => .next (commitLoad xd p.toNat k (rd3 s.mem p.toNat k) s)

end Sys2Proof.Machine
end

