-- ==== Sys2Proof/Machine/MixEngine.lean ====
section
/-! DEFINITION. The mixing engine (40_wide_multiply_and_mix.md): the functions `mum` and `mix`, and the commands NOP,
MUM, MIX and XOR. None of them reads memory. -/

namespace Sys2Proof.Machine

/-- `mum(a, b)`: the exact 128-bit product as its low and its high half (R61). -/
def mum (a b : Word) : Word × Word :=
  (BitVec.ofNat 64 (a.toNat * b.toNat % 2 ^ 64), BitVec.ofNat 64 (a.toNat * b.toNat / 2 ^ 64))

/-- `mix(a, b)`: the low half XOR the high half (R63). -/
def mix (a b : Word) : Word := (mum a b).1 ^^^ (mum a b).2

/-- The portable fallback's product by 32-bit halves and cross products (R62), for the claim that it is the same
product; no command uses it. -/
def schoolbookProduct (a b : Word) : Nat :=
  let aH := a.toNat / 2 ^ 32
  let aL := a.toNat % 2 ^ 32
  let bH := b.toNat / 2 ^ 32
  let bL := b.toNat % 2 ^ 32
  aH * bH * 2 ^ 64 + (aH * bL + aL * bH) * 2 ^ 32 + aL * bL

/-- NOP writes no register (R65). -/
def execNop (s : State) : Host.Outcome State Fault Refusal :=
  .next (commitOk [] s)

/-- MUM writes the low half to `xlo` (field rd) and the high half to `xhi` (field rc); one register for both raises
OPERAND (R66). -/
def execMum (xlo xhi xa xb : Reg) (s : State) : Host.Outcome State Fault Refusal :=
  if xlo = xhi then .next (recordFault .operand 0 s)
  else
    let p := mum (source s xa) (source s xb)
    .next (commitOk [(xlo, p.1), (xhi, p.2)] s)

/-- MIX writes `mix` of the sources (R67). -/
def execMix (xd xa xb : Reg) (s : State) : Host.Outcome State Fault Refusal :=
  .next (commitOk [(xd, mix (source s xa) (source s xb))] s)

/-- XOR writes the exclusive OR of the sources (R68). -/
def execXor (xd xa xb : Reg) (s : State) : Host.Outcome State Fault Refusal :=
  .next (commitOk [(xd, source s xa ^^^ source s xb)] s)

end Sys2Proof.Machine
end

