-- ==== Sys2Proof/Machine/HashPipeline.lean ====
section
/-! DEFINITION. The hash pipeline (42_hash_pipeline.md): the digest function `wyhash` of R77, the same digest as the
state machine of R89 over the hidden registers, and the command HASH, which runs the state machine. The short-key
offsets, the operand pairing of the loops and the 3-byte packing are the rules' own, marked there as general
knowledge (log 18). -/

namespace Sys2Proof.Machine

/-- What one HASH command hashes: key address, length, seed and secret (R90). -/
structure HashArgs where
  p0   : Word
  len  : Word
  seed : Word
  S    : Vector Word 4
deriving DecidableEq, Repr

/-- Seed whitening: `see <- seed ^ mix(seed ^ S0, S1)` (R78). -/
def whiten (seed : Word) (S : Vector Word 4) : Word := seed ^^^ mix (seed ^^^ S[0]) S[1]

/-- The offset `o = (len >> 3) << 2` of the short-key reads (R77, R80). -/
def shortOffset (len : Nat) : Nat := len / 8 * 4

/-- `a` and `b` of a key of 16 bytes or fewer, at address `p` (R77, R79, R80). -/
def shortReads (m : Memory) (p len : Nat) : Word × Word :=
  if 4 ≤ len then
    let o := shortOffset len
    ((rd4 m p <<< 32) ||| rd4 m (p + o),
     (rd4 m (p + len - 4) <<< 32) ||| rd4 m (p + len - 4 - o))
  else if 0 < len then (rd3 m p len, 0)
  else (0, 0)

/-- One 16-byte step of a loop: the first read XOR the secret, the second XOR the accumulator, mixed (R81, R83). -/
def absorb (m : Memory) (p : Nat) (secret see : Word) : Word :=
  mix (rd8 m p ^^^ secret) (rd8 m (p + 8) ^^^ see)

/-- The finaliser (R85). -/
def finalise (a b see len : Word) (S : Vector Word 4) : Word :=
  let ab := mum (a ^^^ S[1]) (b ^^^ see)
  mix (ab.1 ^^^ S[0] ^^^ len) (ab.2 ^^^ S[1])

/-! ### The function of R77 -/

/-- The variables of the loops of R77. -/
structure LoopVars where
  see  : Word
  see1 : Word
  see2 : Word
  p    : Nat
  i    : Nat
deriving DecidableEq, Repr

/-- One pass of the 48-byte loop (R77, R81). -/
def bulkPass (m : Memory) (S : Vector Word 4) (l : LoopVars) : LoopVars where
  see := absorb m l.p S[1] l.see
  see1 := absorb m (l.p + 16) S[2] l.see1
  see2 := absorb m (l.p + 32) S[3] l.see2
  p := l.p + 48
  i := l.i - 48

/-- `do … while i >= 48`, with room for `fuel` passes (R77, R81). -/
def bulkLoop (m : Memory) (S : Vector Word 4) : Nat → LoopVars → LoopVars
  | 0, l => l
  | fuel + 1, l =>
    let l' := bulkPass m S l
    if 48 ≤ l'.i then bulkLoop m S fuel l' else l'

/-- `while i > 16`, with room for `fuel` passes (R77, R83). -/
def tailLoop (m : Memory) (S : Vector Word 4) : Nat → LoopVars → LoopVars
  | 0, l => l
  | fuel + 1, l =>
    if 16 < l.i then
      tailLoop m S fuel { l with see := absorb m l.p S[1] l.see, p := l.p + 16, i := l.i - 16 }
    else l

/-- The loops of a key of more than 16 bytes: the 48-byte loop and its fold if `len >= 48`, then the 16-byte loop
(R77, R81, R82, R83). -/
def longLoops (m : Memory) (S : Vector Word 4) (p len : Nat) (see : Word) : LoopVars :=
  let l : LoopVars := ⟨see, see, see, p, len⟩
  if 48 ≤ len then
    let l' := bulkLoop m S (len / 48) l
    tailLoop m S (len / 16) { l' with see := l'.see ^^^ l'.see1 ^^^ l'.see2 }
  else tailLoop m S (len / 16) l

/-- `wyhash(p0, len, seed, S)` (R77). -/
def wyhash (m : Memory) (k : HashArgs) : Word :=
  let p := k.p0.toNat
  let n := k.len.toNat
  let see := whiten k.seed k.S
  if n ≤ 16 then
    let ab := shortReads m p n
    finalise ab.1 ab.2 see k.len k.S
  else
    let l := longLoops m k.S p n see
    finalise (rd8 m (l.p + l.i - 16)) (rd8 m (l.p + l.i - 8)) l.see k.len k.S

/-! ### The state machine of R89 -/

/-- One row of the table of R89, but for the row FINAL, after which the machine is done (`pipeFinish`). -/
def pipeStep (m : Memory) (k : HashArgs) (p : Pipeline) : Pipeline :=
  match p.phase with
  | .init =>
    let see := whiten k.seed k.S
    if k.len.toNat ≤ 16 then { p with see := see, ptr := k.p0.toNat, rem := k.len, phase := .short }
    else if 48 ≤ k.len.toNat then
      { p with see := see, see1 := see, see2 := see, ptr := k.p0.toNat, rem := k.len, phase := .bulk48 }
    else { p with see := see, ptr := k.p0.toNat, rem := k.len, phase := .tail16 }
  | .short =>
    let ab := shortReads m p.ptr k.len.toNat
    { p with a := ab.1, b := ab.2, phase := .final }
  | .bulk48 =>
    let rem := p.rem - 48
    { p with
      see := absorb m p.ptr k.S[1] p.see
      see1 := absorb m (p.ptr + 16) k.S[2] p.see1
      see2 := absorb m (p.ptr + 32) k.S[3] p.see2
      ptr := p.ptr + 48
      rem := rem
      phase := if 48 ≤ rem.toNat then .bulk48 else .fold }
  | .fold => { p with see := p.see ^^^ p.see1 ^^^ p.see2, phase := .tail16 }
  | .tail16 =>
    if 16 < p.rem.toNat then
      { p with see := absorb m p.ptr k.S[1] p.see, ptr := p.ptr + 16, rem := p.rem - 16 }
    else { p with phase := .last16 }
  | .last16 =>
    { p with
      a := rd8 m (p.ptr + p.rem.toNat - 16)
      b := rd8 m (p.ptr + p.rem.toNat - 8)
      phase := .final }
  | .final => p

/-- The row FINAL of R89: A and B take the halves of the product, and the result is the digest. What the registers
hold afterwards no host can see (log 9), and a HASH that faults leaves them as
they were. -/
def pipeFinish (k : HashArgs) (p : Pipeline) : Pipeline × Word :=
  let ab := mum (p.a ^^^ k.S[1]) (p.b ^^^ p.see)
  ({ p with a := ab.1, b := ab.2 }, mix (ab.1 ^^^ k.S[0] ^^^ k.len) (ab.2 ^^^ k.S[1]))

/-- Rows of R89 until FINAL is reached, at most `fuel` of them. -/
def pipeRun (m : Memory) (k : HashArgs) : Nat → Pipeline → Pipeline
  | 0, p => p
  | fuel + 1, p => if p.phase = .final then p else pipeRun m k fuel (pipeStep m k p)

/-- As many rows as a key of `len` bytes can need before FINAL: each loop row consumes at least 16 bytes, and INIT,
FOLD, the TAIL16 row that leaves the loop and LAST16 are four more. -/
def pipeRows (len : Nat) : Nat := len / 16 + 4

/-- The pipeline from the start of a HASH command, which resets PHASE (10_state.md R17), to its digest (R89). -/
def pipeline (m : Memory) (k : HashArgs) (p : Pipeline) : Pipeline × Word :=
  pipeFinish k (pipeRun m k (pipeRows k.len.toNat) { p with phase := .init })

/-- The phases of the rows that run before FINAL, in order. -/
def pipeTrace (m : Memory) (k : HashArgs) : Nat → Pipeline → List Phase
  | 0, _ => []
  | fuel + 1, p =>
    if p.phase = .final then [] else p.phase :: pipeTrace m k fuel (pipeStep m k p)

/-- The runs of bytes one row of R89 reads. -/
def rowReads (k : HashArgs) (p : Pipeline) : List Span :=
  match p.phase with
  | .init => []
  | .short =>
    let n := k.len.toNat
    if 4 ≤ n then
      let o := shortOffset n
      [⟨p.ptr, 4⟩, ⟨p.ptr + o, 4⟩, ⟨p.ptr + n - 4, 4⟩, ⟨p.ptr + n - 4 - o, 4⟩]
    else if 0 < n then [⟨p.ptr, 1⟩, ⟨p.ptr + n / 2, 1⟩, ⟨p.ptr + n - 1, 1⟩]
    else []
  | .bulk48 =>
    [⟨p.ptr, 8⟩, ⟨p.ptr + 8, 8⟩, ⟨p.ptr + 16, 8⟩, ⟨p.ptr + 24, 8⟩, ⟨p.ptr + 32, 8⟩, ⟨p.ptr + 40, 8⟩]
  | .fold => []
  | .tail16 => if 16 < p.rem.toNat then [⟨p.ptr, 8⟩, ⟨p.ptr + 8, 8⟩] else []
  | .last16 => [⟨p.ptr + p.rem.toNat - 16, 8⟩, ⟨p.ptr + p.rem.toNat - 8, 8⟩]
  | .final => []

/-- The runs of bytes the rows read before FINAL, in order. -/
def pipeReads (m : Memory) (k : HashArgs) : Nat → Pipeline → List Span
  | 0, _ => []
  | fuel + 1, p =>
    if p.phase = .final then [] else rowReads k p ++ pipeReads m k fuel (pipeStep m k p)

/-! ### The command -/

/-- The commit leaves the pipeline's registers in State: PTR keeps its low ADDR_W bits (10_state.md R26). The rows that
ran used exact addresses (R77, R89; log 8). -/
def latchPipe (p : Pipeline) (s : State) : State :=
  { s with pipe := { p with ptr := p.ptr % 2 ^ s.config.addrW } }

/-- After a raced HASH the pipeline's data registers hold any values; PHASE, PTR and REM depend on the length and the
address alone (10_state.md R18; log 10). -/
def scramblePipe (p : Pipeline) (s : State) : State :=
  drawn 5 (latchPipe
    { p with
      see := Config.freeValue s.freeIdx
      see1 := Config.freeValue (s.freeIdx + 1)
      see2 := Config.freeValue (s.freeIdx + 2)
      a := Config.freeValue (s.freeIdx + 3)
      b := Config.freeValue (s.freeIdx + 4) } s)

/-- What HASH hashes: its sources and the secret snapshot (R90). -/
def hashArgs (xaddr xlen xseed : Reg) (s : State) : HashArgs :=
  ⟨source s xaddr, source s xlen, source s xseed, s.snapS⟩

/-- HASH's check: the whole key once, and nothing for an empty key (R90). -/
def hashCheck (c : Config) (k : HashArgs) : Option (Cause × Word) :=
  if k.len = 0 then none else checkAccess c k.p0 k.len.toNat

/-- HASH: the check, then the pipeline's digest to `xd` (R89, R90). -/
def execHash (xd xaddr xlen xseed : Reg) (s : State) : Host.Outcome State Fault Refusal :=
  let k := hashArgs xaddr xlen xseed s
  match hashCheck s.config k with
  | some (c, b) => .next (recordFault c b s)
  | none =>
    let r := pipeline s.mem k s.pipe
    let s' := if raced s k.p0.toNat k.len.toNat then scramblePipe r.1 s else latchPipe r.1 s
    .next (commitLoad xd k.p0.toNat k.len.toNat r.2 s')

end Sys2Proof.Machine
end

