-- ==== Sys2Proof/Machine/Dispatch.lean ====
section
/-! DEFINITION. One arm per command: what the commit of an accepted command does (10_state.md R29). -/

namespace Sys2Proof.Machine

def exec (i : Instr) (s : State) : Host.Outcome State Fault Refusal :=
  match i with
  | .nop => Sys2Proof.Machine.execNop s
  | .mum xlo xhi xa xb => Sys2Proof.Machine.execMum xlo xhi xa xb s
  | .mix xd xa xb => Sys2Proof.Machine.execMix xd xa xb s
  | .xor xd xa xb => Sys2Proof.Machine.execXor xd xa xb s
  | .rd8 xd xaddr => Sys2Proof.Machine.execRd8 xd xaddr s
  | .rd4 xd xaddr => Sys2Proof.Machine.execRd4 xd xaddr s
  | .rd3 xd xaddr xk => Sys2Proof.Machine.execRd3 xd xaddr xk s
  | .hash xd xaddr xlen xseed => Sys2Proof.Machine.execHash xd xaddr xlen xseed s

end Sys2Proof.Machine
end

