-- ==== Sys2Proof/Machine/HostPort.lean ====
section
/-! DEFINITION. The engine's commit and the host's steps: the register window (10_state.md section 4), the command
life cycle (section 7), the host's memory accesses (20_memory.md section 7) and the turns of the schedule. -/

namespace Sys2Proof.Machine

/-- The engine's one step: decode CUR, then run the command, or record ILLEGAL at address 0 (10_state.md R29,
30_encoding.md R56). -/
def commit (s : State) : Host.Outcome State Fault Refusal :=
  match decode s.cur with
  | .ok i => exec i s
  | .error _ => .next (recordFault .illegal 0 s)

/-! ### The register window -/

/-- A register of the window (10_state.md R20). -/
inductive WinReg where
  | ctrl | status | cmd | faultAddr | faultCmd | reserved
  | secret (j : SecretIdx)
  | x (i : Reg)
deriving DecidableEq, Repr

/-- The window offset of a host access that the window admits: 8 bytes, naturally aligned, at an offset from 0x00 to
0xF8 (20_memory.md R44). -/
def accessOffset (c : Config) (addr width : Nat) : Option Nat :=
  if width = 8 ∧ c.engineBase ≤ addr ∧ addr ≤ c.engineBase + 0xF8 ∧ addr % 8 = 0 then
    some (addr - c.engineBase)
  else none

/-- The register at a window offset (10_state.md R20, R24). -/
def windowReg (off : Nat) : WinReg :=
  if off = 0x00 then .ctrl
  else if off = 0x08 then .status
  else if off = 0x10 then .cmd
  else if off = 0x18 then .faultAddr
  else if off = 0x20 then .faultCmd
  else if 0x40 ≤ off ∧ off ≤ 0x58 then .secret (Fin.ofNat 4 ((off - 0x40) / 8))
  else if 0x80 ≤ off ∧ off ≤ 0xF8 then .x (Fin.ofNat 16 ((off - 0x80) / 8))
  else .reserved

/-- What a host read of a register returns (10_state.md R20 to R25, R32). -/
def readReg (s : State) : WinReg → Word
  | .ctrl => 0
  | .status => statusWord s.status
  | .cmd => 0
  | .faultAddr => s.faultAddr
  | .faultCmd => s.faultCmd
  | .reserved => 0
  | .secret j => s.secret[j]
  | .x i => s.x[i]

/-- A CTRL write: SRST wins over CLR, other bits are ignored (10_state.md R21). -/
def writeCtrl (v : Word) (s : State) : State :=
  if v.getLsbD 1 then resetEngine s
  else if v.getLsbD 0 then clearFault s
  else s

/-- A CMD write: accepted when neither BUSY nor ERR, else ignored with OVR set (10_state.md R27). -/
def writeCmd (v : Word) (s : State) : State :=
  if s.status.busy = false ∧ s.status.err = false then acceptCommand v s
  else { s with status := statusOverrun s.status }

/-- An Xi write: ignored with OVR set while BUSY (10_state.md R31). -/
def writeX (i : Reg) (v : Word) (s : State) : State :=
  if s.status.busy then { s with status := statusOverrun s.status } else { s with x := s.x.set i v }

/-- A SECRETj write: ignored with OVR set while BUSY (10_state.md R31). -/
def writeSecret (j : SecretIdx) (v : Word) (s : State) : State :=
  if s.status.busy then { s with status := statusOverrun s.status } else { s with secret := s.secret.set j v }

/-- A host write to a register; writes to the read-only and the reserved ones are ignored (10_state.md R22, R23,
R24). -/
def writeReg (s : State) (v : Word) : WinReg → State
  | .ctrl => writeCtrl v s
  | .status => s
  | .cmd => writeCmd v s
  | .faultAddr => s
  | .faultCmd => s
  | .reserved => s
  | .secret j => writeSecret j v s
  | .x i => writeX i v s

/-! ### The host's memory accesses -/

/-- The bytes are all addresses of engine memory (20_memory.md R33). -/
def insideMemory (c : Config) (addr n : Nat) : Bool := decide (addr + n ≤ 2 ^ c.addrW)

/-- A host write reaches engine memory; while BUSY it is remembered for the race rule (20_memory.md R45, R47). -/
def hostWrite (addr : Nat) (bytes : List Byte) (s : State) : State :=
  { s with
    mem := Memory.putBytes s.mem addr bytes
    busyWrites := if s.status.busy then ⟨addr, bytes.length⟩ :: s.busyWrites else s.busyWrites }

/-- The held-back write in place `k` reaches engine memory, whole. DESIGN CHOICE (log 24, safe): 20_memory.md R46
leaves to the platform the order in which such writes arrive, so the schedule gives it, and an older write that arrives
later overwrites newer bytes. A place that holds no write changes nothing. -/
def drainWrite (k : Nat) (s : State) : State :=
  match s.undrained[k]? with
  | none => s
  | some w => hostWrite w.addr w.bytes { s with undrained := s.undrained.eraseIdx k }

/-- The bytes come back to the host. -/
def observe (o : Observation) (s : State) : State := { s with observed := o :: s.observed }

/-- A host read of engine memory. What it returns of bytes still in the platform's own buffers is the platform's:
free values, one a byte (log 15). -/
def hostRead (addr n : Nat) (s : State) : State :=
  if s.undrained.any (fun w => overlaps addr n w.addr w.bytes.length) then
    drawn n (observe
      (.mem ((List.range n).map (fun i => (Config.freeValue (s.freeIdx + i)).setWidth 8))) s)
  else observe (.mem (memRead s.mem addr n)) s

/-! ### The turns of the schedule -/

/-- One host step. A POLL that sees BUSY = 1 reads again, and the engine's commit, always enabled while BUSY, comes
between two of its reads (10_state.md R30; 30_encoding.md R59; log 12): so the turn stays at the head. -/
def hostStep (op : HostOp) (rest : List Turn) (s : State) : Host.Outcome State Fault Refusal :=
  match op with
  | .read addr width =>
    match accessOffset s.config addr width with
    | none => .refused .windowAccess
    | some off => .next (observe (.reg (readReg s (windowReg off))) { s with schedule := rest })
  | .write addr width v =>
    match accessOffset s.config addr width with
    | none => .refused .windowAccess
    | some off => .next (writeReg { s with schedule := rest } v (windowReg off))
  | .poll =>
    if s.status.busy then commit s
    else .next (observe (.reg (statusWord s.status)) { s with schedule := rest })
  | .memWrite addr bytes =>
    if insideMemory s.config addr bytes.length then .next (hostWrite addr bytes { s with schedule := rest })
    else .refused .outsideMemory
  | .memRead addr n =>
    if insideMemory s.config addr n then .next (hostRead addr n { s with schedule := rest })
    else .refused .outsideMemory
  | .postWrite addr bytes =>
    if insideMemory s.config addr bytes.length then
      .next { s with schedule := rest, undrained := s.undrained ++ [⟨addr, bytes⟩] }
    else .refused .outsideMemory
  | .drain k => .next (drainWrite k { s with schedule := rest })

/-- The engine's turn: the commit while BUSY, no step at all while idle (10_state.md R29; 60_exceptions.md R100). -/
def engineStep (rest : List Turn) (s : State) : Host.Outcome State Fault Refusal :=
  if s.status.busy then commit { s with schedule := rest } else .fault .engineIdle

/-- The next turn of a schedule. -/
def takeTurn (t : Turn) (rest : List Turn) (s : State) : Host.Outcome State Fault Refusal :=
  match t with
  | .host op => hostStep op rest s
  | .engine => engineStep rest s
  | .reset => .next (resetEngine { s with schedule := rest })

/-- No turn is scheduled: the engine commits while BUSY, since its commit is always enabled (10_state.md R30; log 2),
and is quiescent otherwise (70_reset_and_hazards.md R109). -/
def noTurn (s : State) : Host.Outcome State Fault Refusal :=
  if s.status.busy then commit s else .fault .quiescent

/-- A command that has just been accepted with CMD value `v` and whose commit is the very next turn (log 14). -/
def placeCommand (v : Word) (s : State) : State :=
  { acceptCommand v s with schedule := .engine :: s.schedule }

end Sys2Proof.Machine
end

