-- ==== Sys2Proof/Machine/Step.lean ====
section
/-! DEFINITION. One step of the machine: the next turn of the schedule. And a state whose very next step runs a given
command. -/

namespace Sys2Proof.Machine

/-- One step: the agent whose turn it is takes its step (10_state.md R14). -/
def step (s : State) : Host.Outcome State Fault Refusal :=
  match s.schedule with
  | [] => noTurn s
  | t :: rest => takeTurn t rest s

/-- `s` with the command whose bits are `w` accepted and the engine's commit as the very next turn: this machine
fetches no instruction, and CUR is where its step finds the command (10_state.md R17, R27; log 14). -/
def State.withFetchWord (s : State) (nbits w : Nat) : State :=
  placeCommand (BitVec.ofNat 64 (w % 2 ^ nbits)) s

end Sys2Proof.Machine
end

