-- ==== Sys2Proof/Safety.lean ====
section
/-! DEFINITION. The terms claims are stated in: what a command's completion and its fault leave, which bytes it may
read and which the host has touched, what no commit changes, the invariant of every step, and when two states look
the same to the host. -/

namespace Sys2Proof.Machine

/-- A command committed without a fault (10_state.md R29): BUSY falls, DONE rises, and the fault record stays. -/
structure Completed (s t : State) : Prop where
  status    : t.status = { s.status with busy := false, done := true }
  faultAddr : t.faultAddr = s.faultAddr
  faultCmd  : t.faultCmd = s.faultCmd

/-- A command committed with `Fault(c, addr)` (60_exceptions.md R94): the record is written, OVR keeps its value, and
no X and no SECRET register is. -/
structure Faulted (c : Cause) (addr : Word) (s t : State) : Prop where
  status    : t.status = { s.status with busy := false, done := false, err := true, cause := some c }
  faultAddr : t.faultAddr = addr
  faultCmd  : t.faultCmd = s.cur
  x         : t.x = s.x
  secret    : t.secret = s.secret

/-- What no commit changes, whatever the command: every general register outside `written`, the secrets, the
snapshot and CUR, OVR, every byte of memory, and everything outside the engine. -/
structure CommitFrame (written : List Reg) (s t : State) : Prop where
  regs      : ∀ r : Reg, r ∉ written → t.x[r] = s.x[r]
  secret    : t.secret = s.secret
  config    : t.config = s.config
  cur       : t.cur = s.cur
  snapX     : t.snapX = s.snapX
  snapS     : t.snapS = s.snapS
  ovr       : t.status.ovr = s.status.ovr
  mem       : ∀ a, Memory.byteAt t.mem a = Memory.byteAt s.mem a
  schedule  : t.schedule = s.schedule
  observed  : t.observed = s.observed
  undrained : t.undrained = s.undrained

/-- The one memory access of a command that passes its operand check: `n ≥ 1` bytes from `p` on. RD8 and RD4 read 8 and
4, RD3 its k of 1 to 3, HASH its whole key if there is one (60_exceptions.md R91, R93). -/
def Accesses (s : State) (i : Instr) (p : Word) (n : Nat) : Prop :=
  match i with
  | .nop => False
  | .mum _ _ _ _ => False
  | .mix _ _ _ => False
  | .xor _ _ _ => False
  | .rd8 _ xaddr => p = s.snapX[xaddr] ∧ n = 8
  | .rd4 _ xaddr => p = s.snapX[xaddr] ∧ n = 4
  | .rd3 _ xaddr xk => p = s.snapX[xaddr] ∧ n = s.snapX[xk].toNat ∧ 1 ≤ n ∧ n ≤ 3
  | .hash _ xaddr xlen _ => p = s.snapX[xaddr] ∧ n = s.snapX[xlen].toNat ∧ 1 ≤ n

/-- The value that a command which reads memory computes for its destination, from memory `m` and its snapshot (R69,
R70, R71, R77); 0 for the commands that read none. -/
def readValue (m : Memory) (s : State) : Instr → Word
  | .nop => 0
  | .mum _ _ _ _ => 0
  | .mix _ _ _ => 0
  | .xor _ _ _ => 0
  | .rd8 _ xaddr => rd8 m s.snapX[xaddr].toNat
  | .rd4 _ xaddr => rd4 m s.snapX[xaddr].toNat
  | .rd3 _ xaddr xk => rd3 m s.snapX[xaddr].toNat s.snapX[xk].toNat
  | .hash _ xaddr xlen xseed => wyhash m ⟨s.snapX[xaddr], s.snapX[xlen], s.snapX[xseed], s.snapS⟩

/-- The bytes went to memory at `addr, addr+1, …` in order; every other byte and every register of the engine is as it
was (20_memory.md R45). -/
structure MemWritten (addr : Nat) (bytes : List Byte) (s t : State) : Prop where
  written   : ∀ (n : Nat) (h : n < bytes.length), Memory.byteAt t.mem (addr + n) = bytes[n]
  others    : ∀ a, a < addr ∨ addr + bytes.length ≤ a → Memory.byteAt t.mem a = Memory.byteAt s.mem a
  x         : t.x = s.x
  secret    : t.secret = s.secret
  status    : t.status = s.status
  faultAddr : t.faultAddr = s.faultAddr
  faultCmd  : t.faultCmd = s.faultCmd
  cur       : t.cur = s.cur
  snapX     : t.snapX = s.snapX
  snapS     : t.snapS = s.snapS
  pipe      : t.pipe = s.pipe

/-- Every byte of `[addr, addr + n)` is an admitted byte of engine memory (20_memory.md R35). -/
def Readable (c : Config) (addr n : Nat) : Prop :=
  addr + n ≤ 2 ^ c.addrW ∧ ∀ b, addr ≤ b → b < addr + n → admits c b = true

/-- The host wrote this byte since the running command was accepted, or still holds a write to it back
(20_memory.md R46, R47). -/
def HostTouched (s : State) (b : Nat) : Prop :=
  (∃ w ∈ s.busyWrites, w.addr ≤ b ∧ b < w.addr + w.n) ∨
    (∃ w ∈ s.undrained, w.addr ≤ b ∧ b < w.addr + w.bytes.length)

/-- No byte of `[addr, addr + n)` is touched by the host while the command runs. -/
def Untouched (s : State) (addr n : Nat) : Prop :=
  ∀ b, addr ≤ b → b < addr + n → ¬ HostTouched s b

/-- The whole of memory's canonical form: rising addresses, no listed default byte, every address inside engine
memory. -/
structure MemoryInv (s : State) : Prop where
  canonical : Memory.wf s.mem = true
  inside    : ∀ cell ∈ s.mem, cell.1 < 2 ^ s.config.addrW
  posted    : ∀ w ∈ s.undrained, w.addr + w.bytes.length ≤ 2 ^ s.config.addrW

/-- The life cycle: the reachable combinations of BUSY, DONE, ERR (10_state.md R22), CAUSE and the fault record exactly
with ERR (10_state.md R23), the snapshot equal to the live registers while a command runs (10_state.md R28), and no
race remembered while none runs. -/
structure LifeCycleInv (s : State) : Prop where
  busy_alone   : s.status.busy = true → s.status.done = false ∧ s.status.err = false
  done_alone   : s.status.done = true → s.status.err = false
  err_cause    : s.status.err = s.status.cause.isSome
  no_fault     : s.status.cause = none → s.faultAddr = 0 ∧ s.faultCmd = 0
  no_address   : s.status.cause = some .illegal ∨ s.status.cause = some .operand → s.faultAddr = 0
  bus_address  : s.status.cause = some .bus → admits s.config s.faultAddr.toNat = false
  snapshot     : s.status.busy = true → s.snapX = s.x ∧ s.snapS = s.secret
  no_race      : s.status.busy = false → s.busyWrites = []

/-- The invariant that every step keeps. PTR has ADDR_W bits (10_state.md R26). -/
structure Inv (s : State) : Prop where
  platform : s.config.wellFormed = true
  memory   : MemoryInv s
  cycle    : LifeCycleInv s
  pointer  : s.pipe.ptr < 2 ^ s.config.addrW

/-- Two states that look the same to the host and go on looking the same: equal but for the hidden pipeline registers,
and, while no command runs, CUR, the snapshots and the race record (10_state.md R26). -/
structure SameToHost (s t : State) : Prop where
  config    : s.config = t.config
  x         : s.x = t.x
  secret    : s.secret = t.secret
  status    : s.status = t.status
  faultAddr : s.faultAddr = t.faultAddr
  faultCmd  : s.faultCmd = t.faultCmd
  mem       : s.mem = t.mem
  schedule  : s.schedule = t.schedule
  observed  : s.observed = t.observed
  undrained : s.undrained = t.undrained
  freeIdx   : s.freeIdx = t.freeIdx
  running   : s.status.busy = true →
    s.cur = t.cur ∧ s.snapX = t.snapX ∧ s.snapS = t.snapS ∧ s.busyWrites = t.busyWrites

/-- Two outcomes of one kind, their next states the same to the host. -/
def SameOutcome : Host.Outcome State Fault Refusal → Host.Outcome State Fault Refusal → Prop
  | .next s, .next t => SameToHost s t
  | .fault r, .fault q => r = q
  | .refused r, .refused q => r = q
  | _, _ => False

/-- A host step that only looks: an admitted read or write of the window that is no soft reset. -/
def WindowAccess (c : Config) : HostOp → Prop
  | .read addr width => (accessOffset c addr width).isSome = true
  | .write addr width v =>
    ∃ off, accessOffset c addr width = some off ∧ (windowReg off = .ctrl → v.getLsbD 1 = false)
  | _ => False

/-- The address of a window register on a platform. -/
def windowAddr (c : Config) (off : Nat) : Nat := c.engineBase + off

end Sys2Proof.Machine
end

