-- ==== Sys2Proof/Certificates/Slice0/Obligations.lean ====
section
/-! DEFINITION. The statements about WYE-64, from the numbered rules of spec/. A command's sources are always those of
its snapshot, `s.snapX` and `s.snapS` (10_state.md R28). -/

open Sys2Proof Sys2Proof.Machine

/-! ### Encoding -/

/-- 30_encoding.md R52 to R58: a command's word decodes to the command, every operand at every value. -/
def Obligations.DecodeOfEncode : Prop :=
  ∀ i : Instr, i.wellFormed = true → decode (encode i) = .ok i

/-- 30_encoding.md R57: no two CMD values are one command, so a value that decodes is its command's encoding. -/
def Obligations.EncodeOfDecode : Prop :=
  ∀ (v : Word) (i : Instr), decode v = .ok i → encode i = v

/-- 30_encoding.md R56: CUR with a zero upper half and a word that a row of the map selects runs that row's command
with the fields as its operands; any other CUR raises ILLEGAL at address 0 and writes no register. -/
def Obligations.CommitDecodesByOpcodeMap : Prop :=
  ∀ s : State, let w : CmdWord := s.cur.extractLsb' 0 32
    (s.cur.extractLsb' 32 32 = 0 → ∀ r ∈ opcodeMap, w &&& r.mask = r.value →
      commit s = exec (r.opcode.build (w.extractLsb' 20 4).toFin (w.extractLsb' 16 4).toFin
        (w.extractLsb' 12 4).toFin (w.extractLsb' 8 4).toFin) s) ∧
    (s.cur.extractLsb' 32 32 ≠ 0 ∨ (∀ r ∈ opcodeMap, w &&& r.mask ≠ r.value) →
      ∃ t, commit s = .next t ∧ Faulted .illegal 0 s t ∧ CommitFrame [] s t ∧ t.pipe = s.pipe)

/-- 30_encoding.md R55: no word is selected by two rows of the opcode map. -/
def Obligations.OpcodeRowsDisjoint : Prop :=
  ∀ (w : CmdWord) (r q : MapRow), r ∈ opcodeMap → q ∈ opcodeMap →
    w &&& r.mask = r.value → w &&& q.mask = q.value → r = q

/-- 30_encoding.md, the encoding examples after R59: each word decodes to the command beside it. -/
def Obligations.ExampleWordsDecode : Prop :=
  decode 0x00000000 = .ok .nop ∧ decode 0x01134200 = .ok (.mum 1 2 3 4) ∧ decode 0x02567000 = .ok (.mix 5 6 7) ∧
    decode 0x0300F000 = .ok (.xor 0 0 15) ∧ decode 0x10210000 = .ok (.rd8 2 1) ∧
    decode 0x11310000 = .ok (.rd4 3 1) ∧ decode 0x12412000 = .ok (.rd3 4 1 2) ∧
    decode 0x20012300 = .ok (.hash 0 1 2 3) ∧ decode 0x20FEDC00 = .ok (.hash 15 14 13 12)

/-! ### The commit runs the accepted command -/

/-- 10_state.md R29: while BUSY, the engine's step is what the decoded CUR does. Around it the schedule loses the
engine's turn; with no turn scheduled, or a POLL waiting, the schedule stays as it is (logs 1, 2 and 12). -/
def Obligations.StepRunsDecodedCommand : Prop :=
  ∀ (s : State) (i : Instr), s.status.busy = true → decode s.cur = .ok i → i.wellFormed = true →
    (∀ rest, s.schedule = .engine :: rest → step s = exec i { s with schedule := rest }) ∧
    (s.schedule = [] → step s = exec i s) ∧
    (∀ rest, s.schedule = .host .poll :: rest → step s = exec i s)

/-- The model's own convention (log 14): a placed command word is run by the very next step, on operands as they stand
in X and SECRET, with the schedule as it was. -/
def Obligations.PlacedWordRunsNext : Prop :=
  ∀ (s : State) (nbits w : Nat) (i : Instr), decodeTableWord nbits w = some i →
    step (s.withFetchWord nbits w) =
      exec i { s with cur := BitVec.ofNat 64 (w % 2 ^ nbits), snapX := s.x, snapS := s.secret, busyWrites := [], status := { s.status with busy := true, done := false } }

/-! ### What each command does -/

/-- 40_wide_multiply_and_mix.md R65: NOP always completes and writes no register. -/
def Obligations.NopCompletes : Prop :=
  ∀ s : State, ∃ t, exec .nop s = .next t ∧ Completed s t ∧ CommitFrame [] s t

/-- R61, R66: MUM with two different destinations writes the exact 128-bit product, low half and high half. -/
def Obligations.MumWritesExactProduct : Prop :=
  ∀ (s : State) (xlo xhi xa xb : Reg), xlo ≠ xhi →
    ∃ t, exec (.mum xlo xhi xa xb) s = .next t ∧ Completed s t ∧ CommitFrame [xlo, xhi] s t ∧
      t.x[xlo].toNat + 2 ^ 64 * t.x[xhi].toNat = s.snapX[xa].toNat * s.snapX[xb].toNat

/-- R66: MUM with one register for both halves raises OPERAND and writes no register. -/
def Obligations.MumOneDestinationFaults : Prop :=
  ∀ (s : State) (xd xa xb : Reg),
    ∃ t, exec (.mum xd xd xa xb) s = .next t ∧ Faulted .operand 0 s t ∧ CommitFrame [] s t

/-- R63, R67: MIX writes the XOR of the two halves of the exact product. -/
def Obligations.MixWritesFoldedProduct : Prop :=
  ∀ (s : State) (xd xa xb : Reg),
    ∃ t, exec (.mix xd xa xb) s = .next t ∧ Completed s t ∧ CommitFrame [xd] s t ∧
      t.x[xd].toNat = (s.snapX[xa].toNat * s.snapX[xb].toNat % 2 ^ 64) ^^^
        (s.snapX[xa].toNat * s.snapX[xb].toNat / 2 ^ 64)

/-- R68: XOR writes the exclusive OR, bit by bit. -/
def Obligations.XorWritesExclusiveOr : Prop :=
  ∀ (s : State) (xd xa xb : Reg),
    ∃ t, exec (.xor xd xa xb) s = .next t ∧ Completed s t ∧ CommitFrame [xd] s t ∧
      ∀ n, t.x[xd].getLsbD n = (s.snapX[xa].getLsbD n ^^ s.snapX[xb].getLsbD n)

/-- 41_byte_reader.md R69, R74: RD8 of readable bytes that the host does not touch writes their little-endian value. -/
def Obligations.Rd8WritesLittleEndian : Prop :=
  ∀ (s : State) (xd xaddr : Reg), let p := s.snapX[xaddr].toNat
    Readable s.config p 8 → Untouched s p 8 →
      ∃ t, exec (.rd8 xd xaddr) s = .next t ∧ Completed s t ∧ CommitFrame [xd] s t ∧
        t.x[xd].toNat = (Finset.range 8).sum (fun i => (Memory.byteAt s.mem (p + i)).toNat * 2 ^ (8 * i))

/-- R70, R75: RD4 writes the little-endian value of 4 bytes, zero-extended. -/
def Obligations.Rd4WritesLittleEndian : Prop :=
  ∀ (s : State) (xd xaddr : Reg), let p := s.snapX[xaddr].toNat
    Readable s.config p 4 → Untouched s p 4 →
      ∃ t, exec (.rd4 xd xaddr) s = .next t ∧ Completed s t ∧ CommitFrame [xd] s t ∧
        t.x[xd].toNat = (Finset.range 4).sum (fun i => (Memory.byteAt s.mem (p + i)).toNat * 2 ^ (8 * i))

/-- R71, R76: RD3 of a buffer of 1 to 3 bytes writes its first, middle and last byte, the first most significant. -/
def Obligations.Rd3WritesPackedSample : Prop :=
  ∀ (s : State) (xd xaddr xk : Reg), let p := s.snapX[xaddr].toNat
    let k := s.snapX[xk].toNat
    1 ≤ k → k ≤ 3 → Readable s.config p k → Untouched s p k →
      ∃ t, exec (.rd3 xd xaddr xk) s = .next t ∧ Completed s t ∧ CommitFrame [xd] s t ∧
        t.x[xd].toNat = (Memory.byteAt s.mem p).toNat * 2 ^ 16 + (Memory.byteAt s.mem (p + k / 2)).toNat * 2 ^ 8 +
          (Memory.byteAt s.mem (p + k - 1)).toNat

/-- R76, 60_exceptions.md R93: RD3 with k not 1, 2 or 3 raises OPERAND, whatever its address is. -/
def Obligations.Rd3BadCountFaults : Prop :=
  ∀ (s : State) (xd xaddr xk : Reg), s.snapX[xk].toNat = 0 ∨ 3 < s.snapX[xk].toNat →
    ∃ t, exec (.rd3 xd xaddr xk) s = .next t ∧ Faulted .operand 0 s t ∧ CommitFrame [] s t

/-- 42_hash_pipeline.md R77, R90: HASH of a readable key that the host does not touch, or of the empty key, writes the
digest of R77. -/
def Obligations.HashWritesDigest : Prop :=
  ∀ (s : State) (xd xaddr xlen xseed : Reg),
    let k : HashArgs := ⟨s.snapX[xaddr], s.snapX[xlen], s.snapX[xseed], s.snapS⟩
    k.len = 0 ∨ Readable s.config k.p0.toNat k.len.toNat → Untouched s k.p0.toNat k.len.toNat →
      ∃ t, exec (.hash xd xaddr xlen xseed) s = .next t ∧ Completed s t ∧ CommitFrame [xd] s t ∧
        t.x[xd] = wyhash s.mem k

/-- R90: HASH of the empty key completes at any address, with a digest of the seed and the secret alone. -/
def Obligations.HashOfEmptyKey : Prop :=
  ∀ (s : State) (xd xaddr xlen xseed : Reg), s.snapX[xlen] = 0 →
    ∃ t, exec (.hash xd xaddr xlen xseed) s = .next t ∧ Completed s t ∧ CommitFrame [xd] s t ∧
      t.x[xd] =
        (let seed := s.snapX[xseed]
         let see := seed ^^^ mix (seed ^^^ s.snapS[0]) s.snapS[1]
         mix ((mum s.snapS[1] see).1 ^^^ s.snapS[0]) ((mum s.snapS[1] see).2 ^^^ s.snapS[1]))

/-- 20_memory.md R35, 60_exceptions.md R91: an access that leaves the address space raises RANGE at its start, for
RD8, RD4, RD3 and HASH. That a HASH that faults leaves the pipeline's registers as they were is the model's choice
(log 9). -/
def Obligations.AccessPastTopRaisesRange : Prop :=
  ∀ (s : State) (i : Instr) (p : Word) (n : Nat), Accesses s i p n → 2 ^ s.config.addrW < p.toNat + n →
    ∃ t, exec i s = .next t ∧ Faulted .range p s t ∧ CommitFrame [] s t ∧ t.pipe = s.pipe

/-- 20_memory.md R35, 60_exceptions.md R91: an access inside the address space with a byte that is not admitted raises
BUS at the lowest such byte, for RD8, RD4, RD3 and HASH. That a HASH that faults leaves the pipeline's registers as they
were is the model's choice (log 9). -/
def Obligations.AccessOfUnadmittedByteRaisesBus : Prop :=
  ∀ (s : State) (i : Instr) (p : Word) (n b : Nat), s.config.wellFormed = true → Accesses s i p n →
    p.toNat + n ≤ 2 ^ s.config.addrW → p.toNat ≤ b → b < p.toNat + n → admits s.config b = false →
    (∀ c, p.toNat ≤ c → c < b → admits s.config c = true) →
      ∃ t w, exec i s = .next t ∧ Faulted .bus w s t ∧ w.toNat = b ∧ CommitFrame [] s t ∧ t.pipe = s.pipe

/-- 20_memory.md R47 and log 10: a readable access whose bytes the host touched still completes, and its destination
takes a value about which nothing is known: a free value, drawn once and never again. -/
def Obligations.RacedAccessCompletesWithFreeValue : Prop :=
  ∀ (s : State) (i : Instr) (p : Word) (n : Nat), Accesses s i p n → Readable s.config p.toNat n →
    ¬ Untouched s p.toNat n →
      ∃ t k, exec i s = .next t ∧ Completed s t ∧ CommitFrame (dests i) s t ∧
        (∀ r ∈ dests i, t.x[r] = Config.freeValue k) ∧ s.freeIdx ≤ k ∧ t.freeIdx = k + 1

/-! ### Frames and faults of every commit -/

/-- NOP, MUM, MIX and XOR change their destinations, STATUS and the fault record, and nothing else: not the pipeline
and not one byte of memory (10_state.md R29; 20_memory.md R34). -/
def Obligations.ComputeCommandFrame : Prop :=
  ∀ (s t : State) (i : Instr), i.opcode ∈ [Opcode.nop, .mum, .mix, .xor] → exec i s = .next t →
    CommitFrame (dests i) s t ∧ t.pipe = s.pipe ∧ t.freeIdx = s.freeIdx ∧ (Completed s t ∨ ∃ c a, Faulted c a s t)

/-- RD8, RD4 and RD3 change their destination, STATUS and the fault record, and nothing else that is the machine's
(10_state.md R29; 20_memory.md R34, R36). -/
def Obligations.ReaderCommandFrame : Prop :=
  ∀ (s t : State) (i : Instr), i.opcode ∈ [Opcode.rd8, .rd4, .rd3] → exec i s = .next t →
    CommitFrame (dests i) s t ∧ t.pipe = s.pipe ∧ (Completed s t ∨ ∃ c a, Faulted c a s t)

/-- HASH changes its destination, STATUS, the fault record and the pipeline's hidden registers (10_state.md R26, R29;
42_hash_pipeline.md R88). That a HASH that faults leaves those registers as they were is the model's choice (log 9). -/
def Obligations.HashCommandFrame : Prop :=
  ∀ (s t : State) (xd xaddr xlen xseed : Reg), exec (.hash xd xaddr xlen xseed) s = .next t →
    CommitFrame [xd] s t ∧ (Completed s t ∨ ((∃ c a, Faulted c a s t) ∧ t.pipe = s.pipe))

/-- 60_exceptions.md R94: a commit completes, or it records one fault precisely: every X and SECRET register holds what
it held; and memory does (20_memory.md R34). That the pipeline's registers do too is the model's choice (log 9). -/
def Obligations.EveryCommitCompletesOrFaultsPrecisely : Prop :=
  ∀ s : State, ∃ t, commit s = .next t ∧
    (Completed s t ∨ ∃ c a, Faulted c a s t ∧ CommitFrame [] s t ∧ t.pipe = s.pipe)

/-- 20_memory.md R34: an engine step changes no byte of engine memory and takes nothing from the host's buffers: its own
turn, and the commit that an empty schedule or a waiting POLL lets through (the model's choices of logs 2 and 12). -/
def Obligations.EngineNeverWritesMemory : Prop :=
  ∀ (s t : State) (rest : List Turn),
    s.schedule = .engine :: rest ∨ s.schedule = [] ∨ (s.schedule = .host .poll :: rest ∧ s.status.busy = true) →
    step s = .next t → (∀ a, Memory.byteAt t.mem a = Memory.byteAt s.mem a) ∧ t.undrained = s.undrained

/-- 10_state.md R29: the verdict of a commit, its cause and its address depend only on CUR, SNAPX, ADDR_W and MEM_ADMIT,
never on memory or on a race. -/
def Obligations.VerdictIgnoresMemory : Prop :=
  ∀ s t s' t' : State, s.cur = t.cur → s.snapX = t.snapX → s.config.addrW = t.config.addrW →
    s.config.memAdmit = t.config.memAdmit → commit s = .next s' → commit t = .next t' →
      ∀ c a, Faulted c a s s' ↔ Faulted c a t t'

/-- 20_memory.md R47: a host write to bytes that the running command does not read has no effect on its result. -/
def Obligations.UnrelatedHostWriteChangesNoResult : Prop :=
  ∀ (s : State) (i : Instr) (addr : Nat) (bytes : List Byte), Memory.wf s.mem = true → decode s.cur = .ok i →
    (∀ b, (readSpan s i).addr ≤ b → b < (readSpan s i).addr + (readSpan s i).n → b < addr ∨ addr + bytes.length ≤ b) →
      ∃ t u, commit s = .next t ∧ commit (hostWrite addr bytes s) = .next u ∧ u.x = t.x ∧ u.status = t.status ∧
        u.faultAddr = t.faultAddr ∧ u.faultCmd = t.faultCmd

/-! ### The functions of the block -/

/-- 40_wide_multiply_and_mix.md R62: the four cross products of 32-bit halves sum to the exact product, so the
fallback's halves are those of `mum`. -/
def Obligations.CrossProductsGiveTheProduct : Prop :=
  ∀ a b : Word, schoolbookProduct a b = a.toNat * b.toNat ∧
    (mum a b).2.toNat * 2 ^ 64 + (mum a b).1.toNat = schoolbookProduct a b

/-- R64: the laws of `mum` and `mix`. -/
def Obligations.MultiplyLaws : Prop :=
  ∀ a b : Word, mum a b = mum b a ∧ mum 0 b = (0, 0) ∧ mum 1 b = (b, 0) ∧
    mum 0xFFFFFFFFFFFFFFFF 0xFFFFFFFFFFFFFFFF = (1, 0xFFFFFFFFFFFFFFFE) ∧
    mix a b = mix b a ∧ mix 0 b = 0 ∧ mix 1 b = b ∧
    (a.toNat * b.toNat < 2 ^ 64 → (mix a b).toNat = a.toNat * b.toNat)

/-- 20_memory.md R39: a 4-byte read is the low half of the 8-byte read at the same address. -/
def Obligations.Rd4IsLowHalfOfRd8 : Prop :=
  ∀ (m : Memory) (p : Nat), rd4 m p = rd8 m p &&& 0xFFFFFFFF

/-- 42_hash_pipeline.md R80: for every short length the offset `o` and the offsets of the four 4-byte reads, columns as in
the rule's table, each read ending at or before the end of the key. -/
def Obligations.ShortKeyReadOffsets : Prop :=
  ∀ (m : Memory) (p len o aHigh aLow bHigh bLow : Nat), (len, o, aHigh, aLow, bHigh, bLow) ∈
      [(4, 0, 0, 0, 0, 0), (5, 0, 0, 0, 1, 1), (6, 0, 0, 0, 2, 2), (7, 0, 0, 0, 3, 3), (8, 4, 0, 4, 4, 0),
       (9, 4, 0, 4, 5, 1), (10, 4, 0, 4, 6, 2), (11, 4, 0, 4, 7, 3), (12, 4, 0, 4, 8, 4), (13, 4, 0, 4, 9, 5),
       (14, 4, 0, 4, 10, 6), (15, 4, 0, 4, 11, 7), (16, 8, 0, 8, 12, 4)] →
    shortOffset len = o ∧
    shortReads m p len =
      ((rd4 m (p + aHigh) <<< 32) ||| rd4 m (p + aLow), (rd4 m (p + bHigh) <<< 32) ||| rd4 m (p + bLow)) ∧
    aHigh + 4 ≤ len ∧ aLow + 4 ≤ len ∧ bHigh + 4 ≤ len ∧ bLow + 4 ≤ len

/-- 42_hash_pipeline.md R89: the state machine over the hidden registers, started anywhere, computes the digest of
R77. -/
def Obligations.PipelineComputesWyhash : Prop :=
  ∀ (m : Memory) (k : HashArgs) (p : Pipeline), (pipeline m k p).2 = wyhash m k

/-- R81, R82, R83: the machine reaches FINAL after the passes the rules count. The 48-byte row runs `len / 48` times, the
fold exactly when it did, and the 16-byte row `(r - 1) / 16` times for the `r` bytes then left, and once more to leave
the loop. -/
def Obligations.PipelinePassCounts : Prop :=
  ∀ (m : Memory) (k : HashArgs) (p : Pipeline), let n := k.len.toNat
    let r := n % 48
    let trace := pipeTrace m k (pipeRows n) { p with phase := .init }
    (pipeRun m k (pipeRows n) { p with phase := .init }).phase = .final ∧
    trace.count .bulk48 = n / 48 ∧
    trace.count .fold = (if 48 ≤ n then 1 else 0) ∧
    trace.count .tail16 = (if n ≤ 16 then 0 else if r ≤ 16 then 1 else (r - 1) / 16 + 1)

/-- R89: its three invariants, in every phase after INIT, on the exact PTR of the rows of one commit (log 8). -/
def Obligations.PipelineInvariants : Prop :=
  ∀ (m : Memory) (k : HashArgs) (p : Pipeline) (j : Nat),
    let q := (pipeStep m k)^[j + 1] { p with phase := .init }
    q.ptr + q.rem.toNat = k.p0.toNat + k.len.toNat ∧
    (q.phase = .bulk48 → 48 ≤ q.rem.toNat) ∧
    (q.phase = .last16 → q.rem.toNat ≤ 16 ∧ 16 < k.len.toNat)

/-- R88: the digest is a function of the key bytes, the length, the seed and the secret: memory that agrees on the key
gives the same digest. -/
def Obligations.DigestDependsOnKeyBytesOnly : Prop :=
  ∀ (m m' : Memory) (k : HashArgs),
    (∀ b, k.p0.toNat ≤ b → b < k.p0.toNat + k.len.toNat → Memory.byteAt m b = Memory.byteAt m' b) →
      wyhash m k = wyhash m' k

/-- R86: the bytes that the pipeline's rows read are exactly the key's: no read leaves the key, and every byte of it
is read. -/
def Obligations.PipelineReadsExactlyTheKey : Prop :=
  ∀ (m : Memory) (k : HashArgs) (p : Pipeline) (b : Nat),
    (∃ r ∈ pipeReads m k (pipeRows k.len.toNat) { p with phase := .init }, r.addr ≤ b ∧ b < r.addr + r.n) ↔
      k.p0.toNat ≤ b ∧ b < k.p0.toNat + k.len.toNat

/-- R89: a row of the pipeline depends on memory only through the runs of bytes it is said to read. -/
def Obligations.PipelineRowUsesOnlyItsReads : Prop :=
  ∀ (m m' : Memory) (k : HashArgs) (p : Pipeline),
    (∀ r ∈ rowReads k p, ∀ b, r.addr ≤ b → b < r.addr + r.n → Memory.byteAt m b = Memory.byteAt m' b) →
      pipeStep m k p = pipeStep m' k p

/-! ### The command life cycle at the register window -/

/-- 10_state.md R27: a CMD write is accepted when neither BUSY nor ERR, whatever its value, and is ignored with OVR set
otherwise. -/
def Obligations.CmdWriteRule : Prop :=
  ∀ (s : State) (rest : List Turn) (v : Word), s.config.wellFormed = true →
    s.schedule = .host (.write (windowAddr s.config 0x10) 8 v) :: rest →
    (s.status.busy = false ∧ s.status.err = false →
      step s = .next { s with schedule := rest, cur := v, snapX := s.x, snapS := s.secret, busyWrites := [], status := { s.status with busy := true, done := false } }) ∧
    (s.status.busy = true ∨ s.status.err = true →
      step s = .next { s with schedule := rest, status := { s.status with ovr := true } })

/-- 10_state.md R31: an Xi or SECRETj write takes effect while BUSY = 0, also while ERR = 1, and is ignored with OVR set
while BUSY = 1. -/
def Obligations.RegisterWriteRule : Prop :=
  ∀ (s : State) (rest : List Turn) (v : Word), s.config.wellFormed = true →
    (∀ i : Reg, s.schedule = .host (.write (windowAddr s.config (0x80 + 8 * i.val)) 8 v) :: rest →
      (s.status.busy = false → step s = .next { s with schedule := rest, x := s.x.set i v }) ∧
      (s.status.busy = true → step s = .next { s with schedule := rest, status := { s.status with ovr := true } })) ∧
    (∀ j : SecretIdx, s.schedule = .host (.write (windowAddr s.config (0x40 + 8 * j.val)) 8 v) :: rest →
      (s.status.busy = false → step s = .next { s with schedule := rest, secret := s.secret.set j v }) ∧
      (s.status.busy = true → step s = .next { s with schedule := rest, status := { s.status with ovr := true } }))

/-- 10_state.md R32: a host read of Xi, SECRETj or STATUS returns its current value, also while BUSY, and changes nothing
but what the host has seen. -/
def Obligations.RegisterReadsReturnCurrentValue : Prop :=
  ∀ (s : State) (rest : List Turn), s.config.wellFormed = true →
    (∀ i : Reg, s.schedule = .host (.read (windowAddr s.config (0x80 + 8 * i.val)) 8) :: rest →
      step s = .next { s with schedule := rest, observed := .reg s.x[i] :: s.observed }) ∧
    (∀ j : SecretIdx, s.schedule = .host (.read (windowAddr s.config (0x40 + 8 * j.val)) 8) :: rest →
      step s = .next { s with schedule := rest, observed := .reg s.secret[j] :: s.observed }) ∧
    (s.schedule = .host (.read (windowAddr s.config 0x08) 8) :: rest →
      step s = .next { s with schedule := rest, observed := .reg (statusWord s.status) :: s.observed })

/-- 10_state.md R20, R21, R23, R24: what the other offsets read as: CTRL, CMD and the reserved ones 0, and the fault
record its two registers. -/
def Obligations.OtherOffsetsReadAsMapped : Prop :=
  ∀ (s : State) (rest : List Turn) (off : Nat), s.config.wellFormed = true →
    s.schedule = .host (.read (windowAddr s.config off) 8) :: rest →
    (off ∈ [0x00, 0x10, 0x28, 0x30, 0x38, 0x60, 0x68, 0x70, 0x78] →
      step s = .next { s with schedule := rest, observed := .reg 0 :: s.observed }) ∧
    (off = 0x18 → step s = .next { s with schedule := rest, observed := .reg s.faultAddr :: s.observed }) ∧
    (off = 0x20 → step s = .next { s with schedule := rest, observed := .reg s.faultCmd :: s.observed })

/-- 10_state.md R21 to R24: host writes to STATUS, FAULT_ADDR, FAULT_CMD and the reserved offsets, and CTRL writes with
neither CLR nor SRST, whatever their other bits, are ignored and set no status bit. -/
def Obligations.IgnoredWritesChangeNothing : Prop :=
  ∀ (s : State) (rest : List Turn) (off : Nat) (v : Word), s.config.wellFormed = true →
    off ∈ [0x08, 0x18, 0x20, 0x28, 0x30, 0x38, 0x60, 0x68, 0x70, 0x78] ∨
      (off = 0x00 ∧ v.getLsbD 0 = false ∧ v.getLsbD 1 = false) →
    s.schedule = .host (.write (windowAddr s.config off) 8 v) :: rest →
      step s = .next { s with schedule := rest }

/-- 10_state.md R22: the bits of STATUS, each field in its place and every other bit 0. -/
def Obligations.StatusWordLayout : Prop :=
  ∀ t : Status, (statusWord t).getLsbD 0 = t.busy ∧ (statusWord t).getLsbD 1 = t.done ∧
    (statusWord t).getLsbD 2 = t.err ∧ (statusWord t).getLsbD 3 = t.ovr ∧
    (statusWord t).extractLsb' 8 4 =
      (match t.cause with
       | none => 0 | some .illegal => 1 | some .operand => 2 | some .range => 3 | some .bus => 4) ∧
    (statusWord t).extractLsb' 4 4 = 0 ∧ (statusWord t).extractLsb' 12 52 = 0

/-- 60_exceptions.md R95: a CTRL write with CLR = 1 and SRST = 0 clears DONE, ERR, OVR, CAUSE, FAULT_ADDR and FAULT_CMD
and leaves BUSY and everything else, the running command with it; after it, if none runs, a CMD write is accepted. -/
def Obligations.ClearRule : Prop :=
  ∀ (s : State) (rest : List Turn) (v : Word), s.config.wellFormed = true → v.getLsbD 0 = true → v.getLsbD 1 = false →
    s.schedule = .host (.write (windowAddr s.config 0x00) 8 v) :: rest →
      step s = .next { s with schedule := rest, faultAddr := 0, faultCmd := 0, status := { s.status with done := false, err := false, ovr := false, cause := none } } ∧
      (∀ w rest', s.status.busy = false → rest = .host (.write (windowAddr s.config 0x10) 8 w) :: rest' →
        ∃ t, Sys2Proof.core.run 2 s = .next t ∧ t.cur = w ∧ t.status.busy = true)

/-- 70_reset_and_hazards.md R102, R103; 10_state.md R21: a hardware reset, and a CTRL write with SRST = 1 whatever CLR
is, in every state: X all 0, SECRET the default, STATUS and the fault record 0, memory as it was. That what the host has
seen and the host platform's buffers survive is the model's reading (log 16, DEDUCED). -/
def Obligations.BothResetsReachTheResetState : Prop :=
  ∀ (s : State) (rest : List Turn) (v : Word), s.config.wellFormed = true →
    s.schedule = .reset :: rest ∨
      (v.getLsbD 1 = true ∧ s.schedule = .host (.write (windowAddr s.config 0x00) 8 v) :: rest) →
      ∃ t, step s = .next t ∧ t.schedule = rest ∧ (∀ i : Reg, t.x[i] = 0) ∧ t.secret = s.config.defaultSecret ∧
        t.status = ⟨false, false, false, false, none⟩ ∧ t.faultAddr = 0 ∧ t.faultCmd = 0 ∧
        (∀ a, Memory.byteAt t.mem a = Memory.byteAt s.mem a) ∧ t.config = s.config ∧ t.observed = s.observed ∧
        t.undrained = s.undrained

/-- 20_memory.md R44: a host access of the window that is narrower or wider than 64 bits, misaligned or outside the
window is refused; every other one has a step. -/
def Obligations.NonconformingAccessRefused : Prop :=
  ∀ (s : State) (rest : List Turn) (addr width : Nat) (v : Word), s.config.wellFormed = true →
    let conforming := width = 8 ∧ addr % 8 = 0 ∧ s.config.engineBase ≤ addr ∧ addr ≤ s.config.engineBase + 0xF8
    (¬ conforming →
      step { s with schedule := .host (.read addr width) :: rest } = .refused .windowAccess ∧
      step { s with schedule := .host (.write addr width v) :: rest } = .refused .windowAccess) ∧
    (conforming →
      (∃ t, step { s with schedule := .host (.read addr width) :: rest } = .next t) ∧
      (∃ t, step { s with schedule := .host (.write addr width v) :: rest } = .next t))

/-- 20_memory.md R45: a host `MemWrite` inside engine memory puts its bytes at its addresses in order and changes no
other byte and no register. R46: the same write held back by the host's platform changes no byte at first, and does the
same when it is drained; that a held-back write arrives whole, at a turn of its own, is the model's choice (log 24). -/
def Obligations.HostMemWriteRule : Prop :=
  ∀ (s : State) (rest : List Turn) (addr : Nat) (bytes : List Byte), MemoryInv s →
    addr + bytes.length ≤ 2 ^ s.config.addrW →
    (s.schedule = .host (.memWrite addr bytes) :: rest → ∃ t, step s = .next t ∧ MemWritten addr bytes s t) ∧
    (s.schedule = .host (.postWrite addr bytes) :: .host (.drain s.undrained.length) :: rest →
      ∃ u t, step s = .next u ∧ (∀ a, Memory.byteAt u.mem a = Memory.byteAt s.mem a) ∧
        u.undrained = s.undrained ++ [⟨addr, bytes⟩] ∧ step u = .next t ∧ MemWritten addr bytes s t ∧
        t.undrained = s.undrained)

/-- 10_state.md R28, R31; 70_reset_and_hazards.md R106: while a command runs, no access of the window but a soft reset
changes a register that the command reads or writes, the command itself, or memory. -/
def Obligations.RunningCommandUndisturbed : Prop :=
  ∀ (s t : State) (op : HostOp) (rest : List Turn), s.status.busy = true → WindowAccess s.config op →
    s.schedule = .host op :: rest → step s = .next t →
      t.x = s.x ∧ t.secret = s.secret ∧ t.cur = s.cur ∧ t.snapX = s.snapX ∧ t.snapS = s.snapS ∧ t.mem = s.mem ∧
        t.busyWrites = s.busyWrites ∧ t.status.busy = true

/-- 10_state.md R29, R30: while BUSY the commit is always enabled: an engine turn commits in one step. That a POLL and an
empty schedule do so too is the model's choice (log 12, DESIGN CHOICE; log 2, DEDUCED). -/
def Obligations.CommitAlwaysEnabled : Prop :=
  ∀ (s : State) (rest : List Turn), s.status.busy = true →
    s.schedule = [] ∨ s.schedule = .engine :: rest ∨ s.schedule = .host .poll :: rest →
      ∃ t, step s = .next t ∧ t.status.busy = false

/-- 10_state.md R30: the commit comes after any number of window accesses and its effect is the same: the registers, the
fault record and the verdict do not depend on how long the host let it wait. -/
def Obligations.ResultIndependentOfCommitTime : Prop :=
  ∀ (s u : State) (ops : List HostOp), Inv s → s.status.busy = true → (∀ op ∈ ops, WindowAccess s.config op) →
    s.schedule = ops.map Turn.host ++ [.engine] → commit s = .next u →
      ∃ t, Sys2Proof.core.run (ops.length + 1) s = .next t ∧ t.x = u.x ∧ t.secret = u.secret ∧
        t.faultAddr = u.faultAddr ∧ t.faultCmd = u.faultCmd ∧ t.status.busy = u.status.busy ∧
        t.status.done = u.status.done ∧ t.status.err = u.status.err ∧ t.status.cause = u.status.cause

/-- 20_memory.md R46: a host that polls and then reads a register sees the committed value, after a STATUS with
BUSY = 0. That the POLL lets the engine commit in one step, so that three steps are enough, and that only its last read is
kept is the model's choice (log 12, DESIGN CHOICE). -/
def Obligations.PollThenReadSeesCommit : Prop :=
  ∀ (s u : State) (i : Reg), s.config.wellFormed = true → s.status.busy = true → commit s = .next u →
    s.schedule = [.host .poll, .host (.read (windowAddr s.config (0x80 + 8 * i.val)) 8)] →
      ∃ t, Sys2Proof.core.run 3 s = .next t ∧
        t.observed = .reg u.x[i] :: .reg (statusWord u.status) :: s.observed ∧ u.status.busy = false ∧ t.schedule = []

/-- 20_memory.md R46: a command sees every byte the host wrote before the accepting CMD write. Any write inside memory,
before any of the commands that read (RD8, RD4, RD3, HASH of a key that is not empty): the destination takes the value
computed from memory with those bytes in it. -/
def Obligations.CommandSeesEarlierHostWrite : Prop :=
  ∀ (s : State) (i : Instr) (p : Word) (n addr : Nat) (bytes : List Byte), Inv s → s.status.busy = false →
    s.status.err = false → Accesses (acceptCommand (encode i) s) i p n → Readable s.config p.toNat n →
    Untouched s p.toNat n → addr + bytes.length ≤ 2 ^ s.config.addrW →
    s.schedule = [.host (.memWrite addr bytes), .host (.write (windowAddr s.config 0x10) 8 (encode i)), .engine] →
      ∃ t, Sys2Proof.core.run 3 s = .next t ∧ t.status.done = true ∧
        (∀ (j : Nat) (h : j < bytes.length), Memory.byteAt t.mem (addr + j) = bytes[j]) ∧
        (∀ a, a < addr ∨ addr + bytes.length ≤ a → Memory.byteAt t.mem a = Memory.byteAt s.mem a) ∧
        ∀ r ∈ dests i, t.x[r] = readValue t.mem (acceptCommand (encode i) s) i

/-- 60_exceptions.md R96: while ERR = 1, CAUSE, FAULT_ADDR and FAULT_CMD of the first fault stay, through every step but
a CTRL write with CLR or SRST and a hardware reset. -/
def Obligations.FirstFaultIsKept : Prop :=
  ∀ s t : State, Inv s → s.status.err = true → (∀ rest, s.schedule ≠ .reset :: rest) →
    (∀ rest addr width v, s.schedule = .host (.write addr width v) :: rest →
      accessOffset s.config addr width = some 0x00 → v.getLsbD 0 = false ∧ v.getLsbD 1 = false) →
    step s = .next t →
      t.status.err = true ∧ t.status.cause = s.status.cause ∧ t.faultAddr = s.faultAddr ∧ t.faultCmd = s.faultCmd

/-- 10_state.md R23: FAULT_ADDR and FAULT_CMD change only at a fault commit, which leaves CUR in FAULT_CMD, or to 0. -/
def Obligations.FaultRecordChangesOnlyAtFaultCommit : Prop :=
  ∀ s t : State, step s = .next t → t.faultAddr ≠ s.faultAddr ∨ t.faultCmd ≠ s.faultCmd →
    (s.status.busy = true ∧ t.status.busy = false ∧ t.status.err = true ∧ t.faultCmd = s.cur) ∨
      (t.faultAddr = 0 ∧ t.faultCmd = 0 ∧ t.status.err = false ∧ t.status.cause = none)

/-- 60_exceptions.md R100, 70_reset_and_hazards.md R109: an engine with BUSY = 0 has no step; that this is a named stuck
state is the model's choice (log 3). -/
def Obligations.IdleEngineHasNoStep : Prop :=
  ∀ s : State, s.status.busy = false →
    (s.schedule = [] → step s = .fault .quiescent) ∧
    (∀ rest, s.schedule = .engine :: rest → step s = .fault .engineIdle)

/-! ### The whole machine -/

/-- Every step keeps the invariant: the platform's bounds, the canonical form of memory, the life cycle of 10_state.md
R22, R23 and R28, and PTR in its ADDR_W bits (R26). -/
def Obligations.EveryStepKeepsTheInvariant : Prop :=
  ∀ s t : State, Inv s → step s = .next t → Inv t

/-- A machine right after power-on meets the invariant, on every platform whose parameters keep their bounds. -/
def Obligations.PowerOnMeetsTheInvariant : Prop :=
  (∀ c : Config, c.wellFormed = true → Inv (State.powerOn c)) ∧ Inv State.reset

/-- 20_memory.md R37, R42: no step changes a platform parameter. -/
def Obligations.NoStepChangesThePlatform : Prop :=
  ∀ s t : State, step s = .next t → t.config = s.config

/-- 10_state.md R26: the hidden registers are unobservable. Two states that differ only in the pipeline's registers, and
while no command runs in CUR and the snapshots, step alike and go on looking the same to the host. -/
def Obligations.HiddenStateIsUnobservable : Prop :=
  ∀ s t : State, SameToHost s t → SameOutcome (step s) (step t)
end

