-- ==== Sys2Proof/Laws/ReadPort.lean ====
section
/-! SUPPORT. What the read port's check and the race test say: each once, in terms of the bytes of the access. -/

namespace Sys2Proof.Machine

/-- The regions that end above `b`. -/
def openAbove (rs : List Region) (b : Nat) : List Region := rs.filter (fun r => decide (b < r.base + r.size))

theorem openAbove_lt {rs : List Region} {b : Nat} {r : Region} (hr : r ∈ rs) (hb : regionHolds r b = true) :
    (openAbove rs (r.base + r.size)).length < (openAbove rs b).length := by
  simp only [regionHolds, Bool.and_eq_true, decide_eq_true_eq] at hb
  have hsub : openAbove rs (r.base + r.size) = (openAbove rs b).filter
      (fun q => decide (r.base + r.size < q.base + q.size)) := by
    simp only [openAbove, List.filter_filter]
    refine List.filter_congr (fun q _ => ?_)
    by_cases h : r.base + r.size < q.base + q.size
    · simp [h]; omega
    · simp [h]
  rw [hsub]
  refine List.length_filter_lt_length_iff_exists.mpr ⟨r, ?_, by simp⟩
  simp [openAbove, hr]; omega

/-- With room to look at every region that is still open, `firstGap` finds the lowest address of `[b, e)` that no
region holds, or there is none. -/
theorem firstGap_spec (rs : List Region) (fuel b e : Nat) (hf : (openAbove rs b).length ≤ fuel) :
    match firstGap rs fuel b e with
    | none => ∀ c, b ≤ c → c < e → rs.any (fun r => regionHolds r c) = true
    | some g => b ≤ g ∧ g < e ∧ rs.any (fun r => regionHolds r g) = false ∧
        ∀ c, b ≤ c → c < g → rs.any (fun r => regionHolds r c) = true := by
  induction fuel generalizing b with
  | zero =>
    have hnone : ∀ r ∈ rs, ¬ b < r.base + r.size := by
      have : openAbove rs b = [] := List.length_eq_zero_iff.mp (by omega)
      simpa [openAbove, List.filter_eq_nil_iff] using this
    simp only [firstGap]
    split
    · rename_i h
      split at h
      · cases h
      · intro c hc hce; omega
    · rename_i g h
      split at h
      · cases h
        refine ⟨Nat.le_refl _, by assumption, ?_, by intro c hc hcb; omega⟩
        rw [List.any_eq_false]
        intro r hr
        have := hnone r hr
        simp only [regionHolds, Bool.and_eq_true, decide_eq_true_eq]
        omega
      · cases h
  | succ fuel ih =>
    by_cases hbe : b < e
    · cases hfind : rs.find? (fun r => regionHolds r b) with
      | none =>
        simp only [firstGap, if_pos hbe, hfind]
        refine ⟨Nat.le_refl _, hbe, ?_, by intro c hc hcb; omega⟩
        rw [List.any_eq_false]
        simpa using hfind
      | some r =>
        have hr := List.mem_of_find?_eq_some hfind
        have hb : regionHolds r b = true := by simpa using List.find?_some hfind
        have hlt := openAbove_lt hr hb
        have hb' := hb
        simp only [regionHolds, Bool.and_eq_true, decide_eq_true_eq] at hb'
        have hin : ∀ c, b ≤ c → c < r.base + r.size → rs.any (fun q => regionHolds q c) = true := by
          intro c hc hcr
          refine List.any_eq_true.mpr ⟨r, hr, ?_⟩
          simp only [regionHolds, Bool.and_eq_true, decide_eq_true_eq]
          omega
        have := ih (r.base + r.size) (by omega)
        simp only [firstGap, if_pos hbe, hfind]
        split
        · rename_i h
          rw [h] at this
          intro c hc hce
          by_cases hcr : c < r.base + r.size
          · exact hin c hc hcr
          · exact this c (by omega) hce
        · rename_i g h
          rw [h] at this
          obtain ⟨h1, h2, h3, h4⟩ := this
          refine ⟨by omega, h2, h3, fun c hc hcg => ?_⟩
          by_cases hcr : c < r.base + r.size
          · exact hin c hc hcr
          · exact h4 c (by omega) hcg
    · simp only [firstGap, if_neg hbe]
      intro c hc hce; omega

theorem lowestBad_none {c : Config} {addr n : Nat} (h : lowestBad c addr n = none) :
    ∀ b, addr ≤ b → b < addr + n → admits c b = true := by
  have := firstGap_spec c.memAdmit c.memAdmit.length addr (addr + n) (List.length_filter_le _ _)
  rw [show firstGap c.memAdmit c.memAdmit.length addr (addr + n) = none from h] at this
  exact this

theorem lowestBad_some {c : Config} {addr n g : Nat} (h : lowestBad c addr n = some g) :
    addr ≤ g ∧ g < addr + n ∧ admits c g = false ∧ ∀ b, addr ≤ b → b < g → admits c b = true := by
  have := firstGap_spec c.memAdmit c.memAdmit.length addr (addr + n) (List.length_filter_le _ _)
  rw [show firstGap c.memAdmit c.memAdmit.length addr (addr + n) = some g from h] at this
  exact this

/-- The check passes exactly on readable runs (20_memory.md R35). -/
theorem checkAccess_none_iff (c : Config) (addr : Word) (n : Nat) :
    checkAccess c addr n = none ↔ Readable c addr.toNat n := by
  unfold checkAccess
  constructor
  · intro h
    split at h
    · cases h
    · cases hb : lowestBad c addr.toNat n with
      | none => exact ⟨by omega, lowestBad_none hb⟩
      | some g => rw [hb] at h; cases h
  · rintro ⟨hr, ha⟩
    rw [if_neg (by omega)]
    cases hb : lowestBad c addr.toNat n with
    | none => rfl
    | some g =>
      obtain ⟨h1, h2, h3, -⟩ := lowestBad_some hb
      rw [ha g h1 h2] at h3
      cases h3

/-- What the check can answer: RANGE at the start, or BUS at the lowest non-admitted byte (20_memory.md R35). -/
theorem checkAccess_some {c : Config} {addr : Word} {n : Nat} {q : Cause} {w : Word}
    (h : checkAccess c addr n = some (q, w)) :
    (q = .range ∧ w = addr ∧ 2 ^ c.addrW < addr.toNat + n) ∨
      (q = .bus ∧ addr.toNat + n ≤ 2 ^ c.addrW ∧ ∃ g, w = BitVec.ofNat 64 g ∧ addr.toNat ≤ g ∧ g < addr.toNat + n ∧
        admits c g = false ∧ ∀ b, addr.toNat ≤ b → b < g → admits c b = true) := by
  unfold checkAccess at h
  split at h
  · cases h; exact .inl ⟨rfl, rfl, by omega⟩
  · cases hb : lowestBad c addr.toNat n with
    | none => rw [hb] at h; cases h
    | some g =>
      rw [hb] at h
      cases h
      exact .inr ⟨rfl, by omega, g, rfl, lowestBad_some hb⟩

theorem overlaps_iff (a n b k : Nat) :
    overlaps a n b k = true ↔ ∃ c, (a ≤ c ∧ c < a + n) ∧ (b ≤ c ∧ c < b + k) := by
  simp only [overlaps, Bool.and_eq_true, decide_eq_true_eq]
  constructor
  · rintro ⟨⟨⟨h1, h2⟩, h3⟩, h4⟩
    exact ⟨max a b, by omega, by omega⟩
  · rintro ⟨c, h1, h2⟩; omega

/-- A read races exactly when the host touched one of its bytes (20_memory.md R47). -/
theorem raced_iff (s : State) (addr n : Nat) :
    raced s addr n = true ↔ ∃ b, (addr ≤ b ∧ b < addr + n) ∧ HostTouched s b := by
  simp only [raced, Bool.or_eq_true, List.any_eq_true, overlaps_iff, HostTouched]
  constructor
  · rintro (⟨w, hw, b, hb, hb'⟩ | ⟨w, hw, b, hb, hb'⟩)
    · exact ⟨b, hb, .inl ⟨w, hw, hb'⟩⟩
    · exact ⟨b, hb, .inr ⟨w, hw, hb'⟩⟩
  · rintro ⟨b, hb, ⟨w, hw, hb'⟩ | ⟨w, hw, hb'⟩⟩
    · exact .inl ⟨w, hw, b, hb, hb'⟩
    · exact .inr ⟨w, hw, b, hb, hb'⟩

theorem raced_eq_false_iff (s : State) (addr n : Nat) : raced s addr n = false ↔ Untouched s addr n := by
  rw [← Bool.not_eq_true, raced_iff]
  constructor
  · exact fun h b h1 h2 ht => h ⟨b, ⟨h1, h2⟩, ht⟩
  · rintro h ⟨b, ⟨h1, h2⟩, ht⟩; exact h b h1 h2 ht

end Sys2Proof.Machine
end

