-- ==== Sys2Proof/Laws/State.lean ====
section
/-! SUPPORT. What each shared update of the state leaves in each field: one lemma per field per update, each true by
unfolding, so that no later proof unfolds a record update. -/

namespace Sys2Proof.Machine

section

variable (ws : List (Reg × Word)) (s : State)

@[simp] theorem commitOk_config : (commitOk ws s).config = s.config := rfl
@[simp] theorem commitOk_x : (commitOk ws s).x = writeRegs s.x ws := rfl
@[simp] theorem commitOk_secret : (commitOk ws s).secret = s.secret := rfl
@[simp] theorem commitOk_status : (commitOk ws s).status = statusCommit s.status := rfl
@[simp] theorem commitOk_faultAddr : (commitOk ws s).faultAddr = s.faultAddr := rfl
@[simp] theorem commitOk_faultCmd : (commitOk ws s).faultCmd = s.faultCmd := rfl
@[simp] theorem commitOk_cur : (commitOk ws s).cur = s.cur := rfl
@[simp] theorem commitOk_snapX : (commitOk ws s).snapX = s.snapX := rfl
@[simp] theorem commitOk_snapS : (commitOk ws s).snapS = s.snapS := rfl
@[simp] theorem commitOk_pipe : (commitOk ws s).pipe = s.pipe := rfl
@[simp] theorem commitOk_mem : (commitOk ws s).mem = s.mem := rfl
@[simp] theorem commitOk_schedule : (commitOk ws s).schedule = s.schedule := rfl
@[simp] theorem commitOk_observed : (commitOk ws s).observed = s.observed := rfl
@[simp] theorem commitOk_undrained : (commitOk ws s).undrained = s.undrained := rfl
@[simp] theorem commitOk_busyWrites : (commitOk ws s).busyWrites = [] := rfl
@[simp] theorem commitOk_freeIdx : (commitOk ws s).freeIdx = s.freeIdx := rfl

end

section

variable (c : Cause) (a : Word) (s : State)

@[simp] theorem recordFault_config : (recordFault c a s).config = s.config := rfl
@[simp] theorem recordFault_x : (recordFault c a s).x = s.x := rfl
@[simp] theorem recordFault_secret : (recordFault c a s).secret = s.secret := rfl
@[simp] theorem recordFault_status : (recordFault c a s).status = statusFault c s.status := rfl
@[simp] theorem recordFault_faultAddr : (recordFault c a s).faultAddr = a := rfl
@[simp] theorem recordFault_faultCmd : (recordFault c a s).faultCmd = s.cur := rfl
@[simp] theorem recordFault_cur : (recordFault c a s).cur = s.cur := rfl
@[simp] theorem recordFault_snapX : (recordFault c a s).snapX = s.snapX := rfl
@[simp] theorem recordFault_snapS : (recordFault c a s).snapS = s.snapS := rfl
@[simp] theorem recordFault_pipe : (recordFault c a s).pipe = s.pipe := rfl
@[simp] theorem recordFault_mem : (recordFault c a s).mem = s.mem := rfl
@[simp] theorem recordFault_schedule : (recordFault c a s).schedule = s.schedule := rfl
@[simp] theorem recordFault_observed : (recordFault c a s).observed = s.observed := rfl
@[simp] theorem recordFault_undrained : (recordFault c a s).undrained = s.undrained := rfl
@[simp] theorem recordFault_busyWrites : (recordFault c a s).busyWrites = [] := rfl
@[simp] theorem recordFault_freeIdx : (recordFault c a s).freeIdx = s.freeIdx := rfl

end

section

variable (s : State)

@[simp] theorem clearFault_config : (clearFault s).config = s.config := rfl
@[simp] theorem clearFault_x : (clearFault s).x = s.x := rfl
@[simp] theorem clearFault_secret : (clearFault s).secret = s.secret := rfl
@[simp] theorem clearFault_status : (clearFault s).status = statusClear s.status := rfl
@[simp] theorem clearFault_faultAddr : (clearFault s).faultAddr = 0 := rfl
@[simp] theorem clearFault_faultCmd : (clearFault s).faultCmd = 0 := rfl
@[simp] theorem clearFault_cur : (clearFault s).cur = s.cur := rfl
@[simp] theorem clearFault_snapX : (clearFault s).snapX = s.snapX := rfl
@[simp] theorem clearFault_snapS : (clearFault s).snapS = s.snapS := rfl
@[simp] theorem clearFault_pipe : (clearFault s).pipe = s.pipe := rfl
@[simp] theorem clearFault_mem : (clearFault s).mem = s.mem := rfl
@[simp] theorem clearFault_schedule : (clearFault s).schedule = s.schedule := rfl
@[simp] theorem clearFault_observed : (clearFault s).observed = s.observed := rfl
@[simp] theorem clearFault_undrained : (clearFault s).undrained = s.undrained := rfl
@[simp] theorem clearFault_busyWrites : (clearFault s).busyWrites = s.busyWrites := rfl
@[simp] theorem clearFault_freeIdx : (clearFault s).freeIdx = s.freeIdx := rfl

end

section

variable (v : Word) (s : State)

@[simp] theorem acceptCommand_config : (acceptCommand v s).config = s.config := rfl
@[simp] theorem acceptCommand_x : (acceptCommand v s).x = s.x := rfl
@[simp] theorem acceptCommand_secret : (acceptCommand v s).secret = s.secret := rfl
@[simp] theorem acceptCommand_status : (acceptCommand v s).status = statusAccept s.status := rfl
@[simp] theorem acceptCommand_faultAddr : (acceptCommand v s).faultAddr = s.faultAddr := rfl
@[simp] theorem acceptCommand_faultCmd : (acceptCommand v s).faultCmd = s.faultCmd := rfl
@[simp] theorem acceptCommand_cur : (acceptCommand v s).cur = v := rfl
@[simp] theorem acceptCommand_snapX : (acceptCommand v s).snapX = s.x := rfl
@[simp] theorem acceptCommand_snapS : (acceptCommand v s).snapS = s.secret := rfl
@[simp] theorem acceptCommand_pipe : (acceptCommand v s).pipe = s.pipe := rfl
@[simp] theorem acceptCommand_mem : (acceptCommand v s).mem = s.mem := rfl
@[simp] theorem acceptCommand_schedule : (acceptCommand v s).schedule = s.schedule := rfl
@[simp] theorem acceptCommand_observed : (acceptCommand v s).observed = s.observed := rfl
@[simp] theorem acceptCommand_undrained : (acceptCommand v s).undrained = s.undrained := rfl
@[simp] theorem acceptCommand_busyWrites : (acceptCommand v s).busyWrites = [] := rfl
@[simp] theorem acceptCommand_freeIdx : (acceptCommand v s).freeIdx = s.freeIdx := rfl

end

section

variable (s : State)

@[simp] theorem resetEngine_config : (resetEngine s).config = s.config := rfl
@[simp] theorem resetEngine_x : (resetEngine s).x = Vector.replicate 16 0 := rfl
@[simp] theorem resetEngine_secret : (resetEngine s).secret = s.config.defaultSecret := rfl
@[simp] theorem resetEngine_status : (resetEngine s).status = Status.zero := rfl
@[simp] theorem resetEngine_faultAddr : (resetEngine s).faultAddr = 0 := rfl
@[simp] theorem resetEngine_faultCmd : (resetEngine s).faultCmd = 0 := rfl
@[simp] theorem resetEngine_cur : (resetEngine s).cur = 0 := rfl
@[simp] theorem resetEngine_snapX : (resetEngine s).snapX = Vector.replicate 16 0 := rfl
@[simp] theorem resetEngine_snapS : (resetEngine s).snapS = Vector.replicate 4 0 := rfl
@[simp] theorem resetEngine_pipe : (resetEngine s).pipe = Pipeline.zero := rfl
@[simp] theorem resetEngine_mem : (resetEngine s).mem = s.mem := rfl
@[simp] theorem resetEngine_schedule : (resetEngine s).schedule = s.schedule := rfl
@[simp] theorem resetEngine_observed : (resetEngine s).observed = s.observed := rfl
@[simp] theorem resetEngine_undrained : (resetEngine s).undrained = s.undrained := rfl
@[simp] theorem resetEngine_busyWrites : (resetEngine s).busyWrites = [] := rfl
@[simp] theorem resetEngine_freeIdx : (resetEngine s).freeIdx = s.freeIdx := rfl

end

section

variable (k : Nat) (s : State)

@[simp] theorem drawn_config : (drawn k s).config = s.config := rfl
@[simp] theorem drawn_x : (drawn k s).x = s.x := rfl
@[simp] theorem drawn_secret : (drawn k s).secret = s.secret := rfl
@[simp] theorem drawn_status : (drawn k s).status = s.status := rfl
@[simp] theorem drawn_faultAddr : (drawn k s).faultAddr = s.faultAddr := rfl
@[simp] theorem drawn_faultCmd : (drawn k s).faultCmd = s.faultCmd := rfl
@[simp] theorem drawn_cur : (drawn k s).cur = s.cur := rfl
@[simp] theorem drawn_snapX : (drawn k s).snapX = s.snapX := rfl
@[simp] theorem drawn_snapS : (drawn k s).snapS = s.snapS := rfl
@[simp] theorem drawn_pipe : (drawn k s).pipe = s.pipe := rfl
@[simp] theorem drawn_mem : (drawn k s).mem = s.mem := rfl
@[simp] theorem drawn_schedule : (drawn k s).schedule = s.schedule := rfl
@[simp] theorem drawn_observed : (drawn k s).observed = s.observed := rfl
@[simp] theorem drawn_undrained : (drawn k s).undrained = s.undrained := rfl
@[simp] theorem drawn_busyWrites : (drawn k s).busyWrites = s.busyWrites := rfl
@[simp] theorem drawn_freeIdx : (drawn k s).freeIdx = s.freeIdx + k := rfl

end

section

variable (o : Observation) (s : State)

@[simp] theorem observe_config : (observe o s).config = s.config := rfl
@[simp] theorem observe_x : (observe o s).x = s.x := rfl
@[simp] theorem observe_secret : (observe o s).secret = s.secret := rfl
@[simp] theorem observe_status : (observe o s).status = s.status := rfl
@[simp] theorem observe_faultAddr : (observe o s).faultAddr = s.faultAddr := rfl
@[simp] theorem observe_faultCmd : (observe o s).faultCmd = s.faultCmd := rfl
@[simp] theorem observe_cur : (observe o s).cur = s.cur := rfl
@[simp] theorem observe_snapX : (observe o s).snapX = s.snapX := rfl
@[simp] theorem observe_snapS : (observe o s).snapS = s.snapS := rfl
@[simp] theorem observe_pipe : (observe o s).pipe = s.pipe := rfl
@[simp] theorem observe_mem : (observe o s).mem = s.mem := rfl
@[simp] theorem observe_schedule : (observe o s).schedule = s.schedule := rfl
@[simp] theorem observe_observed : (observe o s).observed = o :: s.observed := rfl
@[simp] theorem observe_undrained : (observe o s).undrained = s.undrained := rfl
@[simp] theorem observe_busyWrites : (observe o s).busyWrites = s.busyWrites := rfl
@[simp] theorem observe_freeIdx : (observe o s).freeIdx = s.freeIdx := rfl

end

section

variable (a : Nat) (bs : List Byte) (s : State)

@[simp] theorem hostWrite_config : (hostWrite a bs s).config = s.config := rfl
@[simp] theorem hostWrite_x : (hostWrite a bs s).x = s.x := rfl
@[simp] theorem hostWrite_secret : (hostWrite a bs s).secret = s.secret := rfl
@[simp] theorem hostWrite_status : (hostWrite a bs s).status = s.status := rfl
@[simp] theorem hostWrite_faultAddr : (hostWrite a bs s).faultAddr = s.faultAddr := rfl
@[simp] theorem hostWrite_faultCmd : (hostWrite a bs s).faultCmd = s.faultCmd := rfl
@[simp] theorem hostWrite_cur : (hostWrite a bs s).cur = s.cur := rfl
@[simp] theorem hostWrite_snapX : (hostWrite a bs s).snapX = s.snapX := rfl
@[simp] theorem hostWrite_snapS : (hostWrite a bs s).snapS = s.snapS := rfl
@[simp] theorem hostWrite_pipe : (hostWrite a bs s).pipe = s.pipe := rfl
@[simp] theorem hostWrite_mem : (hostWrite a bs s).mem = Memory.putBytes s.mem a bs := rfl
@[simp] theorem hostWrite_schedule : (hostWrite a bs s).schedule = s.schedule := rfl
@[simp] theorem hostWrite_observed : (hostWrite a bs s).observed = s.observed := rfl
@[simp] theorem hostWrite_undrained : (hostWrite a bs s).undrained = s.undrained := rfl
@[simp] theorem hostWrite_busyWrites : (hostWrite a bs s).busyWrites = if s.status.busy then ⟨a, bs.length⟩ :: s.busyWrites else s.busyWrites := rfl
@[simp] theorem hostWrite_freeIdx : (hostWrite a bs s).freeIdx = s.freeIdx := rfl

end

section

variable (p : Pipeline) (s : State)

@[simp] theorem latchPipe_config : (latchPipe p s).config = s.config := rfl
@[simp] theorem latchPipe_x : (latchPipe p s).x = s.x := rfl
@[simp] theorem latchPipe_secret : (latchPipe p s).secret = s.secret := rfl
@[simp] theorem latchPipe_status : (latchPipe p s).status = s.status := rfl
@[simp] theorem latchPipe_faultAddr : (latchPipe p s).faultAddr = s.faultAddr := rfl
@[simp] theorem latchPipe_faultCmd : (latchPipe p s).faultCmd = s.faultCmd := rfl
@[simp] theorem latchPipe_cur : (latchPipe p s).cur = s.cur := rfl
@[simp] theorem latchPipe_snapX : (latchPipe p s).snapX = s.snapX := rfl
@[simp] theorem latchPipe_snapS : (latchPipe p s).snapS = s.snapS := rfl
@[simp] theorem latchPipe_pipe : (latchPipe p s).pipe = { p with ptr := p.ptr % 2 ^ s.config.addrW } := rfl
@[simp] theorem latchPipe_mem : (latchPipe p s).mem = s.mem := rfl
@[simp] theorem latchPipe_schedule : (latchPipe p s).schedule = s.schedule := rfl
@[simp] theorem latchPipe_observed : (latchPipe p s).observed = s.observed := rfl
@[simp] theorem latchPipe_undrained : (latchPipe p s).undrained = s.undrained := rfl
@[simp] theorem latchPipe_busyWrites : (latchPipe p s).busyWrites = s.busyWrites := rfl
@[simp] theorem latchPipe_freeIdx : (latchPipe p s).freeIdx = s.freeIdx := rfl

end

section

variable (v : Word) (s : State)

@[simp] theorem placeCommand_config : (placeCommand v s).config = s.config := rfl
@[simp] theorem placeCommand_x : (placeCommand v s).x = s.x := rfl
@[simp] theorem placeCommand_secret : (placeCommand v s).secret = s.secret := rfl
@[simp] theorem placeCommand_status : (placeCommand v s).status = statusAccept s.status := rfl
@[simp] theorem placeCommand_faultAddr : (placeCommand v s).faultAddr = s.faultAddr := rfl
@[simp] theorem placeCommand_faultCmd : (placeCommand v s).faultCmd = s.faultCmd := rfl
@[simp] theorem placeCommand_cur : (placeCommand v s).cur = v := rfl
@[simp] theorem placeCommand_snapX : (placeCommand v s).snapX = s.x := rfl
@[simp] theorem placeCommand_snapS : (placeCommand v s).snapS = s.secret := rfl
@[simp] theorem placeCommand_pipe : (placeCommand v s).pipe = s.pipe := rfl
@[simp] theorem placeCommand_mem : (placeCommand v s).mem = s.mem := rfl
@[simp] theorem placeCommand_schedule : (placeCommand v s).schedule = .engine :: s.schedule := rfl
@[simp] theorem placeCommand_observed : (placeCommand v s).observed = s.observed := rfl
@[simp] theorem placeCommand_undrained : (placeCommand v s).undrained = s.undrained := rfl
@[simp] theorem placeCommand_busyWrites : (placeCommand v s).busyWrites = [] := rfl
@[simp] theorem placeCommand_freeIdx : (placeCommand v s).freeIdx = s.freeIdx := rfl

end

section

variable (t : Status)

@[simp] theorem statusAccept_busy : (statusAccept t).busy = true := rfl
@[simp] theorem statusAccept_done : (statusAccept t).done = false := rfl
@[simp] theorem statusAccept_err : (statusAccept t).err = t.err := rfl
@[simp] theorem statusAccept_ovr : (statusAccept t).ovr = t.ovr := rfl
@[simp] theorem statusAccept_cause : (statusAccept t).cause = t.cause := rfl

end

section

variable (t : Status)

@[simp] theorem statusCommit_busy : (statusCommit t).busy = false := rfl
@[simp] theorem statusCommit_done : (statusCommit t).done = true := rfl
@[simp] theorem statusCommit_err : (statusCommit t).err = t.err := rfl
@[simp] theorem statusCommit_ovr : (statusCommit t).ovr = t.ovr := rfl
@[simp] theorem statusCommit_cause : (statusCommit t).cause = t.cause := rfl

end

section

variable (c : Cause) (t : Status)

@[simp] theorem statusFault_busy : (statusFault c t).busy = false := rfl
@[simp] theorem statusFault_done : (statusFault c t).done = false := rfl
@[simp] theorem statusFault_err : (statusFault c t).err = true := rfl
@[simp] theorem statusFault_ovr : (statusFault c t).ovr = t.ovr := rfl
@[simp] theorem statusFault_cause : (statusFault c t).cause = some c := rfl

end

section

variable (t : Status)

@[simp] theorem statusOverrun_busy : (statusOverrun t).busy = t.busy := rfl
@[simp] theorem statusOverrun_done : (statusOverrun t).done = t.done := rfl
@[simp] theorem statusOverrun_err : (statusOverrun t).err = t.err := rfl
@[simp] theorem statusOverrun_ovr : (statusOverrun t).ovr = true := rfl
@[simp] theorem statusOverrun_cause : (statusOverrun t).cause = t.cause := rfl

end

section

variable (t : Status)

@[simp] theorem statusClear_busy : (statusClear t).busy = t.busy := rfl
@[simp] theorem statusClear_done : (statusClear t).done = false := rfl
@[simp] theorem statusClear_err : (statusClear t).err = false := rfl
@[simp] theorem statusClear_ovr : (statusClear t).ovr = false := rfl
@[simp] theorem statusClear_cause : (statusClear t).cause = none := rfl

end

end Sys2Proof.Machine
end

