-- ==== Sys2Proof/Laws/Commands.lean ====
section
/-! SUPPORT. What a command can do, said once: it answers a next state, which is a recorded fault or a commit that
writes the command's own destinations and nothing else that a host can see. -/

namespace Sys2Proof.Machine

/-- A register that a commit does not write keeps its value. -/
theorem writeRegs_other {x : Vector Word 16} {ws : List (Reg × Word)} {r : Reg} (h : r ∉ ws.map Prod.fst) :
    (writeRegs x ws)[r] = x[r] := by
  induction ws generalizing x with
  | nil => rfl
  | cons w ws ih =>
    obtain ⟨q, v⟩ := w
    simp only [List.map_cons, List.mem_cons, not_or] at h
    rw [writeRegs, ih h.2]
    simp only [Fin.getElem_fin, Vector.getElem_set]
    rw [if_neg (fun e => h.1 (Fin.ext e.symm))]

@[simp] theorem writeRegs_nil (x : Vector Word 16) : writeRegs x [] = x := rfl

/-- A single destination, read as `simp` writes it. -/
@[simp] theorem writeRegs_one_val (x : Vector Word 16) (r : Reg) (v : Word) : (writeRegs x [(r, v)])[r.val] = v := by
  simp [writeRegs]

theorem writeRegs_one (x : Vector Word 16) (r : Reg) (v : Word) : (writeRegs x [(r, v)])[r] = v :=
  writeRegs_one_val x r v

/-- The first of two different destinations. -/
theorem writeRegs_first {x : Vector Word 16} {r q : Reg} (v w : Word) (h : r ≠ q) :
    (writeRegs x [(r, v), (q, w)])[r] = v := by
  have h' : ¬ q.val = r.val := fun e => h (Fin.ext e.symm)
  simp [writeRegs, h']

/-- The second of two destinations. -/
theorem writeRegs_second (x : Vector Word 16) (r q : Reg) (v w : Word) :
    (writeRegs x [(r, v), (q, w)])[q] = w := by
  simp [writeRegs]

/-- The faults a command other than an illegal one can raise, with the addresses they record (60_exceptions.md R91). -/
inductive RaisedBy (s : State) : Cause → Word → Prop where
  | operand : RaisedBy s .operand 0
  | range (a : Word) (n : Nat) (h : 2 ^ s.config.addrW < a.toNat + n) : RaisedBy s .range a
  | bus (g : Nat) (h : g < 2 ^ s.config.addrW) (ha : admits s.config g = false) :
    RaisedBy s .bus (BitVec.ofNat 64 g)

theorem raisedBy_of_check {s : State} {addr : Word} {n : Nat} {c : Cause} {a : Word}
    (h : checkAccess s.config addr n = some (c, a)) : RaisedBy s c a := by
  rcases checkAccess_some h with ⟨rfl, rfl, h⟩ | ⟨rfl, ht, g, rfl, h1, h2, h3, -⟩
  · exact .range a n h
  · exact .bus g (by omega) h3

/-- `commitLoad` writes its one destination and may draw one free value. -/
theorem commitLoad_cases (rd : Reg) (addr n : Nat) (v : Word) (s : State) :
    ∃ w k, commitLoad rd addr n v s = commitOk [(rd, w)] (drawn k s) ∧ (raced s addr n = false → w = v ∧ k = 0) ∧
      (raced s addr n = true → w = Config.freeValue s.freeIdx ∧ k = 1) := by
  unfold commitLoad
  cases h : raced s addr n
  · exact ⟨v, 0, rfl, by simp, by simp⟩
  · exact ⟨_, 1, rfl, by simp, by simp⟩

/-- Every command answers a next state: a recorded fault, or a commit of its destinations, PTR as it was or in its
ADDR_W bits. -/
theorem exec_cases (i : Instr) (s : State) :
    (∃ c a, RaisedBy s c a ∧ exec i s = .next (recordFault c a s)) ∨
      (∃ ws p k, ws.map Prod.fst = dests i ∧ (p = s.pipe ∨ p.ptr < 2 ^ s.config.addrW) ∧
        exec i s = .next (commitOk ws (drawn k { s with pipe := p }))) := by
  cases i with
  | nop => exact .inr ⟨[], s.pipe, 0, rfl, .inl rfl, rfl⟩
  | mum xlo xhi xa xb =>
    by_cases h : xlo = xhi
    · exact .inl ⟨.operand, 0, .operand, by simp [exec, execMum, h]⟩
    · exact .inr ⟨[(xlo, _), (xhi, _)], s.pipe, 0, rfl, .inl rfl, by simp only [exec, execMum, if_neg h]; rfl⟩
  | mix xd xa xb => exact .inr ⟨[(xd, _)], s.pipe, 0, rfl, .inl rfl, rfl⟩
  | xor xd xa xb => exact .inr ⟨[(xd, _)], s.pipe, 0, rfl, .inl rfl, rfl⟩
  | rd8 xd xaddr =>
    simp only [exec, execRd8]
    split
    · rename_i c b h
      exact .inl ⟨c, b, raisedBy_of_check h, rfl⟩
    · obtain ⟨w, k, h, -, -⟩ := commitLoad_cases xd (source s xaddr).toNat 8 (rd8 s.mem (source s xaddr).toNat) s
      exact .inr ⟨[(xd, w)], s.pipe, k, rfl, .inl rfl, by rw [h]⟩
  | rd4 xd xaddr =>
    simp only [exec, execRd4]
    split
    · rename_i c b h
      exact .inl ⟨c, b, raisedBy_of_check h, rfl⟩
    · obtain ⟨w, k, h, -, -⟩ := commitLoad_cases xd (source s xaddr).toNat 4 (rd4 s.mem (source s xaddr).toNat) s
      exact .inr ⟨[(xd, w)], s.pipe, k, rfl, .inl rfl, by rw [h]⟩
  | rd3 xd xaddr xk =>
    simp only [exec, execRd3]
    split
    · exact .inl ⟨.operand, 0, .operand, rfl⟩
    · split
      · rename_i c b h
        exact .inl ⟨c, b, raisedBy_of_check h, rfl⟩
      · obtain ⟨w, k, h, -, -⟩ := commitLoad_cases xd (source s xaddr).toNat (source s xk).toNat
          (rd3 s.mem (source s xaddr).toNat (source s xk).toNat) s
        exact .inr ⟨[(xd, w)], s.pipe, k, rfl, .inl rfl, by rw [h]⟩
  | hash xd xaddr xlen xseed =>
    simp only [exec, execHash]
    split
    · rename_i c b h
      unfold hashCheck at h
      split at h
      · cases h
      · exact .inl ⟨c, b, raisedBy_of_check h, rfl⟩
    · right
      split
      · obtain ⟨w, k, h, -, -⟩ := commitLoad_cases xd (hashArgs xaddr xlen xseed s).p0.toNat
          (hashArgs xaddr xlen xseed s).len.toNat (pipeline s.mem (hashArgs xaddr xlen xseed s) s.pipe).2
          (scramblePipe (pipeline s.mem (hashArgs xaddr xlen xseed s) s.pipe).1 s)
        refine ⟨[(xd, w)], (scramblePipe (pipeline s.mem (hashArgs xaddr xlen xseed s) s.pipe).1 s).pipe, 5 + k, rfl,
          .inr (Nat.mod_lt _ (Nat.two_pow_pos _)), ?_⟩
        rw [h]
        simp only [drawn, scramblePipe, latchPipe, Nat.add_assoc]
      · obtain ⟨w, k, h, -, -⟩ := commitLoad_cases xd (hashArgs xaddr xlen xseed s).p0.toNat
          (hashArgs xaddr xlen xseed s).len.toNat (pipeline s.mem (hashArgs xaddr xlen xseed s) s.pipe).2
          (latchPipe (pipeline s.mem (hashArgs xaddr xlen xseed s) s.pipe).1 s)
        exact ⟨[(xd, w)], (latchPipe (pipeline s.mem (hashArgs xaddr xlen xseed s) s.pipe).1 s).pipe, k, rfl,
          .inr (Nat.mod_lt _ (Nat.two_pow_pos _)), by rw [h]; rfl⟩

/-- The engine's commit: ILLEGAL on an undecodable CUR, else what the command does (30_encoding.md R56). -/
theorem commit_cases (s : State) :
    (∃ r, decode s.cur = .error r ∧ commit s = .next (recordFault .illegal 0 s)) ∨
      (∃ i, decode s.cur = .ok i ∧ commit s = exec i s) := by
  unfold commit
  cases h : decode s.cur with
  | error r => exact .inl ⟨r, rfl, rfl⟩
  | ok i => exact .inr ⟨i, rfl, rfl⟩

/-- Every commit answers a next state with BUSY = 0: a fault with its record, or a completion. -/
theorem commit_next (s : State) :
    (∃ c a, (c = .illegal ∧ a = 0 ∨ RaisedBy s c a) ∧ commit s = .next (recordFault c a s)) ∨
      (∃ ws p k, (p = s.pipe ∨ p.ptr < 2 ^ s.config.addrW) ∧
        commit s = .next (commitOk ws (drawn k { s with pipe := p }))) := by
  rcases commit_cases s with ⟨r, -, h⟩ | ⟨i, -, h⟩
  · exact .inl ⟨.illegal, 0, .inl ⟨rfl, rfl⟩, h⟩
  · rcases exec_cases i s with ⟨c, a, hr, he⟩ | ⟨ws, p, k, -, hp, he⟩
    · exact .inl ⟨c, a, .inr hr, h.trans he⟩
    · exact .inr ⟨ws, p, k, hp, h.trans he⟩

end Sys2Proof.Machine
end

