-- ==== Sys2Proof/Laws/Memory.lean ====
section
/-! SUPPORT. The laws of engine memory: reading after writing, and the canonical form kept by every write. -/

namespace Sys2Proof.Machine

theorem wfFrom_mono {lo lo' : Nat} {m : Memory} (h : Memory.wfFrom lo m = true) (hl : lo' ≤ lo) :
    Memory.wfFrom lo' m = true := by
  cases m with
  | nil => rfl
  | cons c m =>
    simp only [Memory.wfFrom, Bool.and_eq_true, decide_eq_true_eq] at h ⊢
    exact ⟨⟨by omega, h.1.2⟩, h.2⟩

/-- Below the first listed address every byte reads as unlisted. -/
theorem byteAt_below {lo : Nat} {m : Memory} (h : Memory.wfFrom lo m = true) {a : Nat} (ha : a < lo) :
    Memory.byteAt m a = Memory.unlisted := by
  induction m generalizing lo with
  | nil => rfl
  | cons c m ih =>
    simp only [Memory.wfFrom, Bool.and_eq_true, decide_eq_true_eq] at h
    simp only [Memory.byteAt]
    rw [if_neg (by omega)]
    exact ih h.2 (by omega)

/-- A write keeps the canonical form. -/
theorem wfFrom_put {lo : Nat} {m : Memory} (h : Memory.wfFrom lo m = true) {a : Nat} (ha : lo ≤ a) (b : Byte) :
    Memory.wfFrom lo (Memory.put m a b) = true := by
  induction m generalizing lo with
  | nil =>
    by_cases hb : b = Memory.unlisted
    · simp [Memory.put, hb, Memory.wfFrom]
    · simp [Memory.put, hb, Memory.wfFrom, ha]
  | cons c m ih =>
    obtain ⟨k, d⟩ := c
    have h' := h
    simp only [Memory.wfFrom, Bool.and_eq_true, decide_eq_true_eq] at h'
    obtain ⟨⟨hk, hd⟩, hm⟩ := h'
    simp only [Memory.put]
    split
    · split
      · exact h
      · rename_i hlt hb
        simp only [Memory.wfFrom, Bool.and_eq_true, decide_eq_true_eq, bne_iff_ne, ne_eq]
        exact ⟨⟨ha, hb⟩, ⟨by omega, by simpa using hd⟩, hm⟩
    · split
      · rename_i hne heq
        subst heq
        split
        · exact wfFrom_mono hm (by omega)
        · rename_i hb
          simp only [Memory.wfFrom, Bool.and_eq_true, decide_eq_true_eq, bne_iff_ne, ne_eq]
          exact ⟨⟨ha, hb⟩, hm⟩
      · simp only [Memory.wfFrom, Bool.and_eq_true, decide_eq_true_eq]
        exact ⟨⟨hk, hd⟩, ih hm (by omega)⟩

theorem wf_put {m : Memory} (h : Memory.wf m = true) (a : Nat) (b : Byte) : Memory.wf (Memory.put m a b) = true :=
  wfFrom_put h (Nat.zero_le a) b

theorem wf_putBytes {m : Memory} (h : Memory.wf m = true) (a : Nat) (bs : List Byte) :
    Memory.wf (Memory.putBytes m a bs) = true := by
  induction bs generalizing m a with
  | nil => exact h
  | cons b bs ih => exact ih (wf_put h a b) (a + 1)

/-- Read after write: the written address reads as written, every other address as before. -/
theorem byteAt_put_from {lo : Nat} {m : Memory} (h : Memory.wfFrom lo m = true) (a : Nat) (b : Byte) (c : Nat) :
    Memory.byteAt (Memory.put m a b) c = if c = a then b else Memory.byteAt m c := by
  induction m generalizing lo with
  | nil =>
    by_cases hb : b = Memory.unlisted <;> by_cases hc : c = a <;> simp [Memory.put, Memory.byteAt, hb, hc]
  | cons d m ih =>
    obtain ⟨k, e⟩ := d
    have h' := h
    simp only [Memory.wfFrom, Bool.and_eq_true, decide_eq_true_eq] at h'
    obtain ⟨⟨hk, -⟩, hm⟩ := h'
    simp only [Memory.put]
    split
    · rename_i hlt
      split
      · rename_i hb
        by_cases hc : c = a
        · rw [if_pos hc, byteAt_below (lo := k) (by simp_all [Memory.wfFrom]) (by omega), hb]
        · rw [if_neg hc]
      · simp only [Memory.byteAt]
    · split
      · rename_i hne heq
        subst heq
        split
        · rename_i hb
          by_cases hc : c = a
          · rw [if_pos hc, byteAt_below hm (by omega), hb]
          · simp [Memory.byteAt, hc]
        · by_cases hc : c = a <;> simp [Memory.byteAt, hc]
      · rename_i h1 h2
        simp only [Memory.byteAt]
        by_cases hck : c = k
        · rw [if_pos hck, if_neg (by omega), if_pos hck]
        · rw [if_neg hck, if_neg hck]
          exact ih hm

theorem byteAt_put {m : Memory} (h : Memory.wf m = true) (a : Nat) (b : Byte) (c : Nat) :
    Memory.byteAt (Memory.put m a b) c = if c = a then b else Memory.byteAt m c :=
  byteAt_put_from h a b c

/-- Outside the bytes written, memory reads as before. -/
theorem byteAt_putBytes_outside {m : Memory} (h : Memory.wf m = true) (a : Nat) (bs : List Byte) {c : Nat}
    (hc : c < a ∨ a + bs.length ≤ c) : Memory.byteAt (Memory.putBytes m a bs) c = Memory.byteAt m c := by
  induction bs generalizing m a with
  | nil => rfl
  | cons b bs ih =>
    simp only [List.length_cons] at hc
    rw [Memory.putBytes, ih (wf_put h a b) (a + 1) (by omega), byteAt_put h, if_neg (by omega)]

/-- The i-th byte written is the one read at the i-th address. -/
theorem byteAt_putBytes_inside {m : Memory} (h : Memory.wf m = true) (a : Nat) (bs : List Byte) (i : Nat)
    (hi : i < bs.length) : Memory.byteAt (Memory.putBytes m a bs) (a + i) = bs[i] := by
  induction bs generalizing m a i with
  | nil => simp at hi
  | cons b bs ih =>
    rw [Memory.putBytes]
    cases i with
    | zero =>
      rw [byteAt_putBytes_outside (wf_put h a b) (a + 1) bs (by omega), byteAt_put h]
      simp
    | succ i =>
      have := ih (wf_put h a b) (a + 1) i (by simpa using hi)
      rw [show a + (i + 1) = a + 1 + i by omega, this]
      simp

/-- A write lists no address but its own and those listed before. -/
theorem mem_put_cases {m : Memory} {a : Nat} {b : Byte} {cell : Host.Cell} (h : cell ∈ Memory.put m a b) :
    cell = (a, b) ∨ cell ∈ m := by
  induction m with
  | nil =>
    simp only [Memory.put] at h
    split at h <;> simp_all
  | cons c m ih =>
    obtain ⟨k, d⟩ := c
    simp only [Memory.put] at h
    split at h
    · split at h <;> simp_all
    · split at h
      · split at h
        · exact .inr (List.mem_cons_of_mem _ h)
        · rcases List.mem_cons.mp h with h | h
          · exact .inl h
          · exact .inr (List.mem_cons_of_mem _ h)
      · rcases List.mem_cons.mp h with h | h
        · exact .inr (h ▸ List.mem_cons_self)
        · rcases ih h with h | h
          · exact .inl h
          · exact .inr (List.mem_cons_of_mem _ h)

theorem mem_putBytes_lt {m : Memory} {a : Nat} {bs : List Byte} {top : Nat} (hm : ∀ cell ∈ m, cell.1 < top)
    (hb : a + bs.length ≤ top) : ∀ cell ∈ Memory.putBytes m a bs, cell.1 < top := by
  induction bs generalizing m a with
  | nil => exact hm
  | cons b bs ih =>
    simp only [List.length_cons] at hb
    refine ih (fun cell hc => ?_) (by omega)
    rcases mem_put_cases hc with h | h
    · rw [h]; show a < top; omega
    · exact hm cell h

end Sys2Proof.Machine
end

