-- ==== Sys2Proof/Laws/PerInstr.lean ====
section
/-! SUPPORT. Families of facts about commands as syntax, one lemma per constructor. -/

namespace Sys2Proof.Laws

namespace EncodedRow

/-- The command's word is selected by its own opcode's row of the opcode map (30_encoding.md R55). -/
def Statement (i : Instr) : Prop := ∃ r ∈ opcodeMap, r.opcode = i.opcode ∧ r.selects (encodeWord i) = true

/-- A word whose masked bits are the row's is selected: the field bits the mask drops do not matter. -/
theorem selected {op : BitVec 8} {d a b c : BitVec 4} {z : BitVec 8} {o : Opcode} {value mask : CmdWord}
    (h : layout op d a b c z &&& mask = value) : (⟨o, value, mask⟩ : MapRow).selects (layout op d a b c z) = true := by
  simp [MapRow.selects, h]

/-- A mask over two fields side by side masks each. -/
theorem and_append {n m : Nat} (a c : BitVec n) (b d : BitVec m) : (a ++ b) &&& (c ++ d) = (a &&& c) ++ (b &&& d) := by
  ext i hi
  simp only [BitVec.getElem_and, BitVec.getElem_append]
  split <;> simp

theorem mask_layout (op mop : BitVec 8) (d a b c md ma mb mc : BitVec 4) (z mz : BitVec 8) :
    layout op d a b c z &&& layout mop md ma mb mc mz =
      layout (op &&& mop) (d &&& md) (a &&& ma) (b &&& mb) (c &&& mc) (z &&& mz) := by
  show ((op ++ d ++ a ++ b ++ c ++ z : BitVec (8 + 4 + 4 + 4 + 4 + 8)) &&& (mop ++ md ++ ma ++ mb ++ mc ++ mz) :
    BitVec (8 + 4 + 4 + 4 + 4 + 8)) = _
  rw [and_append, and_append, and_append, and_append, and_append]
  rfl

theorem nop : Statement .nop := ⟨⟨.nop, 0x00000000, 0xFFFFFFFF⟩, by simp [opcodeMap], rfl, by decide⟩

theorem mum (xlo xhi xa xb : Reg) : Statement (.mum xlo xhi xa xb) := by
  refine ⟨⟨.mum, 0x01000000, 0xFF0000FF⟩, by simp [opcodeMap], rfl, selected ?_⟩
  rw [show (0xFF0000FF : CmdWord) = layout 0xFF 0 0 0 0 0xFF by decide, mask_layout]
  simp; decide

theorem mix (xd xa xb : Reg) : Statement (.mix xd xa xb) := by
  refine ⟨⟨.mix, 0x02000000, 0xFF000FFF⟩, by simp [opcodeMap], rfl, selected ?_⟩
  rw [show (0xFF000FFF : CmdWord) = layout 0xFF 0 0 0 0xF 0xFF by decide, mask_layout]
  simp; decide

theorem xor (xd xa xb : Reg) : Statement (.xor xd xa xb) := by
  refine ⟨⟨.xor, 0x03000000, 0xFF000FFF⟩, by simp [opcodeMap], rfl, selected ?_⟩
  rw [show (0xFF000FFF : CmdWord) = layout 0xFF 0 0 0 0xF 0xFF by decide, mask_layout]
  simp; decide

theorem rd8 (xd xaddr : Reg) : Statement (.rd8 xd xaddr) := by
  refine ⟨⟨.rd8, 0x10000000, 0xFF00FFFF⟩, by simp [opcodeMap], rfl, selected ?_⟩
  rw [show (0xFF00FFFF : CmdWord) = layout 0xFF 0 0 0xF 0xF 0xFF by decide, mask_layout]
  simp; decide

theorem rd4 (xd xaddr : Reg) : Statement (.rd4 xd xaddr) := by
  refine ⟨⟨.rd4, 0x11000000, 0xFF00FFFF⟩, by simp [opcodeMap], rfl, selected ?_⟩
  rw [show (0xFF00FFFF : CmdWord) = layout 0xFF 0 0 0xF 0xF 0xFF by decide, mask_layout]
  simp; decide

theorem rd3 (xd xaddr xk : Reg) : Statement (.rd3 xd xaddr xk) := by
  refine ⟨⟨.rd3, 0x12000000, 0xFF000FFF⟩, by simp [opcodeMap], rfl, selected ?_⟩
  rw [show (0xFF000FFF : CmdWord) = layout 0xFF 0 0 0 0xF 0xFF by decide, mask_layout]
  simp; decide

theorem hash (xd xaddr xlen xseed : Reg) : Statement (.hash xd xaddr xlen xseed) := by
  refine ⟨⟨.hash, 0x20000000, 0xFF0000FF⟩, by simp [opcodeMap], rfl, selected ?_⟩
  rw [show (0xFF0000FF : CmdWord) = layout 0xFF 0 0 0 0 0xFF by decide, mask_layout]
  simp; decide

end EncodedRow

end Sys2Proof.Laws
end

