-- ==== Sys2Proof/Laws/Pipeline.lean ====
section
/-! SUPPORT. The rows of the HASH pipeline (42_hash_pipeline.md R89), one lemma per row, and what running rows means:
cited in place of unfolding `pipeStep`, whose nested matches grow when it is applied to itself. -/

namespace Sys2Proof.Machine

/-- Subtracting what is there: no wrap. -/
theorem toNat_sub_small (w : Word) (n : Nat) (hn : n < 2 ^ 64) (h : n ≤ w.toNat) :
    (w - BitVec.ofNat 64 n).toNat = w.toNat - n := by
  have h' : BitVec.ofNat 64 n ≤ w := by
    rw [BitVec.le_def]; simpa only [BitVec.toNat_ofNat, Nat.mod_eq_of_lt hn] using h
  rw [BitVec.toNat_sub_of_le h', BitVec.toNat_ofNat, Nat.mod_eq_of_lt hn]

variable {m : Memory} {k : HashArgs} {p : Pipeline}

theorem pipeStep_init_short (hp : p.phase = .init) (h : k.len.toNat ≤ 16) :
    pipeStep m k p = { p with see := whiten k.seed k.S, ptr := k.p0.toNat, rem := k.len, phase := .short } := by
  simp only [pipeStep, hp]
  rw [if_pos h]

theorem pipeStep_init_bulk (hp : p.phase = .init) (h : 48 ≤ k.len.toNat) :
    pipeStep m k p = { p with
      see := whiten k.seed k.S, see1 := whiten k.seed k.S, see2 := whiten k.seed k.S
      ptr := k.p0.toNat, rem := k.len, phase := .bulk48 } := by
  simp only [pipeStep, hp]
  rw [if_neg (by omega), if_pos h]

theorem pipeStep_init_tail (hp : p.phase = .init) (h : 16 < k.len.toNat) (h' : k.len.toNat < 48) :
    pipeStep m k p = { p with see := whiten k.seed k.S, ptr := k.p0.toNat, rem := k.len, phase := .tail16 } := by
  simp only [pipeStep, hp]
  rw [if_neg (by omega), if_neg (by omega)]

theorem pipeStep_short (hp : p.phase = .short) :
    pipeStep m k p = { p with
      a := (shortReads m p.ptr k.len.toNat).1, b := (shortReads m p.ptr k.len.toNat).2, phase := .final } := by
  simp only [pipeStep, hp]

theorem pipeStep_bulk48 (hp : p.phase = .bulk48) :
    pipeStep m k p = { p with
      see := absorb m p.ptr k.S[1] p.see
      see1 := absorb m (p.ptr + 16) k.S[2] p.see1
      see2 := absorb m (p.ptr + 32) k.S[3] p.see2
      ptr := p.ptr + 48, rem := p.rem - 48
      phase := if 48 ≤ (p.rem - 48).toNat then .bulk48 else .fold } := by
  simp only [pipeStep, hp]

theorem pipeStep_fold (hp : p.phase = .fold) :
    pipeStep m k p = { p with see := p.see ^^^ p.see1 ^^^ p.see2, phase := .tail16 } := by
  simp only [pipeStep, hp]

theorem pipeStep_tail16_more (hp : p.phase = .tail16) (h : 16 < p.rem.toNat) :
    pipeStep m k p = { p with see := absorb m p.ptr k.S[1] p.see, ptr := p.ptr + 16, rem := p.rem - 16 } := by
  simp only [pipeStep, hp]
  rw [if_pos h]

theorem pipeStep_tail16_leave (hp : p.phase = .tail16) (h : p.rem.toNat ≤ 16) :
    pipeStep m k p = { p with phase := .last16 } := by
  simp only [pipeStep, hp]
  rw [if_neg (by omega)]

theorem pipeStep_last16 (hp : p.phase = .last16) :
    pipeStep m k p = { p with
      a := rd8 m (p.ptr + p.rem.toNat - 16), b := rd8 m (p.ptr + p.rem.toNat - 8), phase := .final } := by
  simp only [pipeStep, hp]

theorem pipeStep_final (hp : p.phase = .final) : pipeStep m k p = p := by
  simp only [pipeStep, hp]

theorem pipeRun_final (f : Nat) (hp : p.phase = .final) : pipeRun m k f p = p := by
  cases f <;> simp [pipeRun, hp]

theorem pipeRun_succ (f : Nat) (hp : p.phase ≠ .final) :
    pipeRun m k (f + 1) p = pipeRun m k f (pipeStep m k p) := by
  simp [pipeRun, hp]

theorem pipeTrace_final (f : Nat) (hp : p.phase = .final) : pipeTrace m k f p = [] := by
  cases f <;> simp [pipeTrace, hp]

theorem pipeTrace_succ (f : Nat) (hp : p.phase ≠ .final) :
    pipeTrace m k (f + 1) p = p.phase :: pipeTrace m k f (pipeStep m k p) := by
  simp [pipeTrace, hp]

theorem pipeReads_final (f : Nat) (hp : p.phase = .final) : pipeReads m k f p = [] := by
  cases f <;> simp [pipeReads, hp]

theorem pipeReads_succ (f : Nat) (hp : p.phase ≠ .final) :
    pipeReads m k (f + 1) p = rowReads k p ++ pipeReads m k f (pipeStep m k p) := by
  simp [pipeReads, hp]

/-! ### The loops of R77 -/

theorem tailLoop_leave (m : Memory) (S : Vector Word 4) (f : Nat) {l : LoopVars} (h : l.i ≤ 16) :
    tailLoop m S f l = l := by
  cases f with
  | zero => rfl
  | succ f =>
    rw [tailLoop]
    exact if_neg (by omega)

theorem tailLoop_more (m : Memory) (S : Vector Word 4) (f : Nat) {l : LoopVars} (h : 16 < l.i) :
    tailLoop m S (f + 1) l =
      tailLoop m S f { l with see := absorb m l.p S[1] l.see, p := l.p + 16, i := l.i - 16 } := by
  rw [tailLoop]
  exact if_pos h

theorem bulkLoop_last (m : Memory) (S : Vector Word 4) (f : Nat) {l : LoopVars} (h : l.i - 48 < 48) :
    bulkLoop m S (f + 1) l = bulkPass m S l := by
  rw [bulkLoop]
  exact if_neg (by show ¬ 48 ≤ l.i - 48; omega)

theorem bulkLoop_more (m : Memory) (S : Vector Word 4) (f : Nat) {l : LoopVars} (h : 48 ≤ l.i - 48) :
    bulkLoop m S (f + 1) l = bulkLoop m S f (bulkPass m S l) := by
  rw [bulkLoop]
  exact if_pos h

end Sys2Proof.Machine
end

