-- ==== Sys2Proof/Laws/Turns.lean ====
section
/-! SUPPORT. What a step can do, said once; which window address is which register; what each host event leaves
alone. -/

namespace Sys2Proof.Machine

/-! ### The register window -/

/-- On a platform within its bounds, an aligned window offset is the offset of its address. -/
theorem accessOffset_windowAddr {c : Config} (hc : c.wellFormed = true) {off : Nat} (h : off ≤ 0xF8)
    (h8 : off % 8 = 0) : accessOffset c (windowAddr c off) 8 = some off := by
  simp only [Config.wellFormed, Bool.and_eq_true, decide_eq_true_eq] at hc
  unfold accessOffset windowAddr
  rw [if_pos (by omega)]
  congr 1
  omega

theorem accessOffset_eq_some {c : Config} {addr width off : Nat} :
    accessOffset c addr width = some off ↔
      width = 8 ∧ addr = windowAddr c off ∧ off ≤ 0xF8 ∧ addr % 8 = 0 := by
  unfold accessOffset windowAddr
  split
  · simp only [Option.some.injEq]
    omega
  · simp only [reduceCtorEq, false_iff]
    omega

@[simp] theorem windowReg_ctrl : windowReg 0x00 = .ctrl := rfl
@[simp] theorem windowReg_status : windowReg 0x08 = .status := rfl
@[simp] theorem windowReg_cmd : windowReg 0x10 = .cmd := rfl
@[simp] theorem windowReg_faultAddr : windowReg 0x18 = .faultAddr := rfl
@[simp] theorem windowReg_faultCmd : windowReg 0x20 = .faultCmd := rfl

@[simp] theorem windowReg_x (i : Reg) : windowReg (0x80 + 8 * i.val) = .x i := by
  revert i; decide

@[simp] theorem windowReg_secret (j : SecretIdx) : windowReg (0x40 + 8 * j.val) = .secret j := by
  revert j; decide

theorem windowReg_eq_ctrl {off : Nat} : windowReg off = .ctrl ↔ off = 0 := by
  unfold windowReg
  split
  · simp_all
  · constructor
    · intro h
      repeat' split at h
      all_goals cases h
    · intro h
      contradiction

/-! ### Host events -/

/-- A host write to the window ends in one of these. -/
theorem writeReg_cases (s : State) (v : Word) (r : WinReg) :
    writeReg s v r = s ∨
      (r = .ctrl ∧ v.getLsbD 1 = true ∧ writeReg s v r = resetEngine s) ∨
      (r = .ctrl ∧ v.getLsbD 1 = false ∧ v.getLsbD 0 = true ∧ writeReg s v r = clearFault s) ∨
      (s.status.busy = false ∧ s.status.err = false ∧ writeReg s v r = acceptCommand v s) ∨
      ((s.status.busy = true ∨ s.status.err = true) ∧ writeReg s v r = { s with status := statusOverrun s.status }) ∨
      (s.status.busy = false ∧ ∃ i : Reg, writeReg s v r = { s with x := s.x.set i v }) ∨
      (s.status.busy = false ∧ ∃ j : SecretIdx, writeReg s v r = { s with secret := s.secret.set j v }) := by
  cases r with
  | ctrl =>
    cases h1 : v.getLsbD 1
    · cases h0 : v.getLsbD 0
      · exact .inl (by simp only [writeReg, writeCtrl, h1, h0]; rfl)
      · exact .inr (.inr (.inl ⟨rfl, rfl, rfl, by simp only [writeReg, writeCtrl, h1, h0]; rfl⟩))
    · exact .inr (.inl ⟨rfl, rfl, by simp only [writeReg, writeCtrl, h1]; rfl⟩)
  | cmd =>
    by_cases h : s.status.busy = false ∧ s.status.err = false
    · exact .inr (.inr (.inr (.inl ⟨h.1, h.2, if_pos h⟩)))
    · exact .inr (.inr (.inr (.inr (.inl ⟨by cases hb : s.status.busy <;> simp_all, if_neg h⟩))))
  | secret j =>
    cases hb : s.status.busy
    · exact .inr (.inr (.inr (.inr (.inr (.inr ⟨rfl, j, by simp [writeReg, writeSecret, hb]⟩)))))
    · exact .inr (.inr (.inr (.inr (.inl ⟨.inl rfl, by simp [writeReg, writeSecret, hb]⟩))))
  | x i =>
    cases hb : s.status.busy
    · exact .inr (.inr (.inr (.inr (.inr (.inl ⟨rfl, i, by simp [writeReg, writeX, hb]⟩)))))
    · exact .inr (.inr (.inr (.inr (.inl ⟨.inl rfl, by simp [writeReg, writeX, hb]⟩))))
  | _ => exact .inl rfl

/-- A host write touches memory and the race record only. -/
theorem hostWrite_eq (addr : Nat) (bytes : List Byte) (s : State) :
    hostWrite addr bytes s =
      { s with
        mem := Memory.putBytes s.mem addr bytes
        busyWrites := if s.status.busy then ⟨addr, bytes.length⟩ :: s.busyWrites else s.busyWrites } := rfl

/-- A drain finds no write in its place, or takes that write out of the buffers and puts it into memory. -/
theorem drainWrite_cases (k : Nat) (s : State) :
    drainWrite k s = s ∨
      ∃ w ∈ s.undrained, drainWrite k s = hostWrite w.addr w.bytes { s with undrained := s.undrained.eraseIdx k } := by
  unfold drainWrite
  split
  · exact .inl rfl
  · rename_i w h
    exact .inr ⟨w, List.mem_of_getElem? h, rfl⟩

/-- A read of memory by the host changes only what the host has seen, and the count of free values. -/
theorem hostRead_cases (addr n : Nat) (s : State) : ∃ o k, hostRead addr n s = drawn k (observe o s) := by
  unfold hostRead
  split
  · exact ⟨_, n, rfl⟩
  · exact ⟨_, 0, rfl⟩

/-! ### The step -/

/-- Everything a step can do, `u` being the state whose turn has been taken off the schedule. -/
inductive Turned (s u : State) : State → Prop where
  | commit {t} (busy : s.status.busy = true) (h : Machine.commit u = .next t) : Turned s u t
  | window (addr width off : Nat) (v : Word) (rest : List Turn)
      (turn : s.schedule = .host (.write addr width v) :: rest)
      (h : accessOffset s.config addr width = some off) : Turned s u (writeReg u v (windowReg off))
  | look (o : Observation) (k : Nat) : Turned s u (drawn k (observe o u))
  | write (addr : Nat) (bytes : List Byte) (h : addr + bytes.length ≤ 2 ^ s.config.addrW) :
      Turned s u (hostWrite addr bytes u)
  | post (addr : Nat) (bytes : List Byte) (h : addr + bytes.length ≤ 2 ^ s.config.addrW) :
      Turned s u { u with undrained := u.undrained ++ [⟨addr, bytes⟩] }
  | drain (k : Nat) : Turned s u (drainWrite k u)
  | reset (rest : List Turn) (turn : s.schedule = .reset :: rest) : Turned s u (resetEngine u)

/-- One step is one of those, on the state with the turn taken off (or left on, where a POLL waits). -/
theorem step_cases {s t : State} (h : step s = .next t) : ∃ sch, Turned s { s with schedule := sch } t := by
  unfold step at h
  split at h
  · unfold noTurn at h
    split at h
    · exact ⟨s.schedule, .commit ‹_› h⟩
    · cases h
  · rename_i turn rest hs
    cases turn with
    | host op =>
      simp only [takeTurn] at h
      cases op with
      | read addr width =>
        simp only [hostStep] at h
        split at h
        · cases h
        · injection h with h
          exact ⟨rest, h ▸ .look _ 0⟩
      | write addr width v =>
        simp only [hostStep] at h
        split at h
        · cases h
        · rename_i off ho
          injection h with h
          exact ⟨rest, h ▸ .window addr width off v rest hs ho⟩
      | poll =>
        simp only [hostStep] at h
        split at h
        · exact ⟨s.schedule, .commit ‹_› h⟩
        · injection h with h
          exact ⟨rest, h ▸ .look _ 0⟩
      | memWrite addr bytes =>
        simp only [hostStep] at h
        split at h
        · rename_i hi
          injection h with h
          exact ⟨rest, h ▸ .write addr bytes (by simpa [insideMemory] using hi)⟩
        · cases h
      | memRead addr n =>
        simp only [hostStep] at h
        split at h
        · injection h with h
          obtain ⟨o, k, hr⟩ := hostRead_cases addr n { s with schedule := rest }
          exact ⟨rest, h ▸ hr ▸ .look o k⟩
        · cases h
      | postWrite addr bytes =>
        simp only [hostStep] at h
        split at h
        · rename_i hi
          injection h with h
          exact ⟨rest, h ▸ .post addr bytes (by simpa [insideMemory] using hi)⟩
        · cases h
      | drain k =>
        simp only [hostStep] at h
        injection h with h
        exact ⟨rest, h ▸ .drain k⟩
    | engine =>
      simp only [takeTurn, engineStep] at h
      split at h
      · exact ⟨rest, .commit ‹_› h⟩
      · cases h
    | reset =>
      simp only [takeTurn] at h
      injection h with h
      exact ⟨rest, h ▸ .reset rest hs⟩

/-- The engine's turn, an empty schedule and a waiting POLL commit while BUSY. -/
theorem step_engine {s : State} {rest : List Turn} (hs : s.schedule = .engine :: rest) (hb : s.status.busy = true) :
    step s = commit { s with schedule := rest } := by
  simp [step, hs, takeTurn, engineStep, hb]

theorem step_empty {s : State} (hs : s.schedule = []) (hb : s.status.busy = true) : step s = commit s := by
  simp [step, hs, noTurn, hb]

theorem step_poll {s : State} {rest : List Turn} (hs : s.schedule = .host .poll :: rest)
    (hb : s.status.busy = true) : step s = commit s := by
  simp [step, hs, takeTurn, hostStep, hb]

/-- A run takes its first step, then the rest. -/
theorem run_next {s t : State} (h : step s = .next t) (k : Nat) :
    Sys2Proof.core.run (k + 1) s = Sys2Proof.core.run k t := by
  simp only [Host.Core.run, Sys2Proof.core, h]

/-- A window write is a `writeReg`, a window read an `observe`. -/
theorem step_write {s : State} {rest : List Turn} {addr width off : Nat} {v : Word}
    (hs : s.schedule = .host (.write addr width v) :: rest) (ho : accessOffset s.config addr width = some off) :
    step s = .next (writeReg { s with schedule := rest } v (windowReg off)) := by
  simp [step, hs, takeTurn, hostStep, ho]

theorem step_read {s : State} {rest : List Turn} {addr width off : Nat}
    (hs : s.schedule = .host (.read addr width) :: rest) (ho : accessOffset s.config addr width = some off) :
    step s = .next (observe (.reg (readReg s (windowReg off))) { s with schedule := rest }) := by
  simp [step, hs, takeTurn, hostStep, ho]

end Sys2Proof.Machine
end

