-- ==== Sys2Proof/Tests/Slice0.lean ====
section
/-! SUPPORT. Tests against the spec's own words, examples and tables, one step each; and for every statement that has
hypotheses a witness that meets them all, at the ends of their ranges. -/

namespace Sys2Proof.Tests

open Sys2Proof Sys2Proof.Machine

set_option Elab.async false

/-! ### WellFormed: ill-formed terms that the checks refuse -/

theorem test_wellFormed_refuses_addrW_zero : ({ Config.platform with addrW := 0 } : Config).wellFormed = false := by
  decide

theorem test_wellFormed_refuses_addrW_above_64 : ({ Config.platform with addrW := 65 } : Config).wellFormed = false := by
  decide

theorem test_wellFormed_refuses_unaligned_base :
    ({ Config.platform with engineBase := 0x80 } : Config).wellFormed = false := by decide

theorem test_wellFormed_accepts_bounds : ({ Config.platform with addrW := 1 } : Config).wellFormed = true ∧
    Config.platform.wellFormed = true := by decide

/-- A register index is bounded by its type, so every command passes (log 21). -/
theorem test_wellFormed_accepts_every_register : (Instr.hash 15 0 15 0).wellFormed = true := by decide

/-- 20_memory.md R44: narrower, wider, misaligned, below and above the window. -/
theorem test_access_refused : accessOffset Config.platform 0x80 4 = none ∧ accessOffset Config.platform 0x80 16 = none ∧
    accessOffset Config.platform 0x81 8 = none ∧ accessOffset Config.platform 0x100 8 = none ∧
    accessOffset { Config.platform with engineBase := 0x100 } 0xF8 8 = none := by decide

/-! ### Decode: words written out from 30_encoding.md -/

theorem test_decode_nop : decode 0x0000000000000000 = .ok .nop := by decide
theorem test_decode_mum : decode 0b00000001000100110100001000000000 = .ok (.mum 1 2 3 4) := by decide
theorem test_decode_mix : decode 0b00000010010101100111000000000000 = .ok (.mix 5 6 7) := by decide
theorem test_decode_xor : decode 0b00000011000000001111000000000000 = .ok (.xor 0 0 15) := by decide
theorem test_decode_rd8 : decode 0b00010000001000010000000000000000 = .ok (.rd8 2 1) := by decide
theorem test_decode_rd4 : decode 0b00010001001100010000000000000000 = .ok (.rd4 3 1) := by decide
theorem test_decode_rd3 : decode 0b00010010010000010010000000000000 = .ok (.rd3 4 1 2) := by decide
theorem test_decode_hash : decode 0b00100000111111101101110000000000 = .ok (.hash 15 14 13 12) := by decide

/-- The table of 95_test_vectors.md section 4: each illegal word, rejected for its reason. -/
theorem test_decode_rejects : decode 0x00000001 = .error .reservedZ ∧ decode 0x00100000 = .error .unusedField ∧
    decode 0x04000000 = .error .unmappedOp ∧ decode 0xFF000000 = .error .unmappedOp ∧
    decode 0x0000000100000000 = .error .highHalf ∧ decode 0x01134201 = .error .reservedZ ∧
    decode 0x02567100 = .error .unusedField ∧ decode 0x10211000 = .error .unusedField ∧
    decode 0x11310100 = .error .unusedField ∧ decode 0x12412100 = .error .unusedField ∧
    decode 0x20012380 = .error .reservedZ := by decide

theorem test_encode_words : encode (.mum 1 2 3 4) = 0x01134200 ∧ encode (.mix 5 6 7) = 0x02567000 ∧
    encode (.rd3 4 1 2) = 0x12412000 ∧ encode (.hash 0 1 2 3) = 0x20012300 := by decide

/-! ### One command on a small state -/

/-- The machine after reset on a platform, with some registers written and some memory in place. -/
def machine (c : Config) (xs : List (Reg × Word)) (m : Memory) : State :=
  { State.powerOn c with x := writeRegs (State.powerOn c).x xs, mem := m }

/-- The state after the CMD value `w` has been accepted and committed. -/
def after (s : State) (w : Nat) : Option State :=
  match step (s.withFetchWord 64 w) with
  | .next t => some t
  | .fault _ => none
  | .refused _ => none

/-- A register and STATUS after the CMD value `w`. -/
def result (s : State) (w : Nat) (r : Reg) : Option (Word × Word) :=
  (after s w).map (fun t => (t.x[r], statusWord t.status))

/-- STATUS, FAULT_ADDR and FAULT_CMD after the CMD value `w`. -/
def verdict (s : State) (w : Nat) : Option (Word × Word × Word) :=
  (after s w).map (fun t => (statusWord t.status, t.faultAddr, t.faultCmd))

/-- Bytes from `addr` on, put into empty memory. -/
def bytesAt (addr : Nat) (bs : List Nat) : Memory :=
  Memory.putBytes [] addr (bs.map (BitVec.ofNat 8))

/-- The key K of 95_test_vectors.md: `M[0x1000 + i] = i`, its first `n` bytes. -/
def keyK (n : Nat) : Memory := bytesAt 0x1000 (List.range n)

/-- R65's example. -/
theorem test_nop_done : verdict State.reset 0x00000000 = some (0x002, 0, 0) := by decide +kernel

/-- 95_test_vectors.md section 4: NOP with z = 1. -/
theorem test_nop_reserved_bits_illegal : verdict State.reset 0x00000001 = some (0x104, 0, 1) := by decide +kernel

/-- R66's example: the low half goes to rd. -/
theorem test_mum_low_half :
    result (machine Config.platform [(3, 0xFFFFFFFFFFFFFFFF), (4, 2)] []) 0x01134200 1 =
      some (0xFFFFFFFFFFFFFFFE, 0x002) := by decide +kernel

/-- 95_test_vectors.md section 2, aliasing: the sources are read before the destinations are written. -/
theorem test_mum_in_place_high_half :
    result (machine Config.platform [(0, 0xFFFFFFFFFFFFFFFF)] []) 0x01000100 1 =
      some (0xFFFFFFFFFFFFFFFE, 0x002) := by decide +kernel

/-- R67's example. -/
theorem test_mix_example :
    result (machine Config.platform [(6, 0x0123456789ABCDEF), (7, 0xFEDCBA9876543210)] []) 0x02567000 5 =
      some (0x2317228F48165BB2, 0x002) := by decide +kernel

/-- 95_test_vectors.md section 2: the table's last row of products. -/
theorem test_xor_example :
    result (machine Config.platform [(1, 0xa0761d6478bd642f), (2, 0xe7037ed1a0b428db)] []) 0x03012000 0 =
      some (0x477563b5d8094cf4, 0x002) := by decide +kernel

/-- 95_test_vectors.md section 3: bytes `ff 80 01 7f 00 aa 55 fe` at 0x3000. -/
theorem test_rd8_little_endian :
    result (machine Config.platform [(1, 0x3000)] (bytesAt 0x3000 [0xff, 0x80, 0x01, 0x7f, 0x00, 0xaa, 0x55, 0xfe]))
      0x10210000 2 = some (0xfe55aa007f0180ff, 0x002) := by decide +kernel

/-- 95_test_vectors.md section 4: the first address whose 8 bytes would wrap. -/
theorem test_rd8_would_wrap :
    verdict (machine Config.platform [(1, 0xfffffffffffffff9)] []) 0x10210000 =
      some (0x304, 0xfffffffffffffff9, 0x10210000) := by decide +kernel

/-- 95_test_vectors.md section 3: zero-extended, not sign-extended. -/
theorem test_rd4_zero_extends :
    result (machine Config.platform [(1, 0x3004)] (bytesAt 0x3000 [0xff, 0x80, 0x01, 0x7f, 0x00, 0xaa, 0x55, 0xfe]))
      0x11310000 3 = some (0xfe55aa00, 0x002) := by decide +kernel

/-- 95_test_vectors.md section 4, ADDR_W = 32: RD4 at 0xFFFFFFFD. -/
theorem test_rd4_narrow_space :
    verdict (machine { Config.platform with addrW := 32 } [(1, 0xfffffffd)] []) 0x11310000 =
      some (0x304, 0xfffffffd, 0x11310000) := by decide +kernel

/-- 95_test_vectors.md section 3, k = 2: first, middle and last byte. -/
theorem test_rd3_two_bytes :
    result (machine Config.platform [(1, 0x1010), (2, 2)] (keyK 0x20)) 0x12412000 4 =
      some (0x101111, 0x002) := by decide +kernel

/-- 95_test_vectors.md section 4: OPERAND outranks RANGE. -/
theorem test_rd3_operand_outranks_range :
    verdict (machine Config.platform [(1, 0xffffffffffffffff), (2, 0xffffffffffffffff)] []) 0x12412000 =
      some (0x204, 0, 0x12412000) := by decide +kernel

/-- 95_test_vectors.md section 5, L = 65, seed 0, set A: every row of the pipeline but SHORT. -/
theorem test_hash_65_bytes :
    result (machine Config.platform [(1, 0x1000), (2, 65), (3, 0)] (keyK 0x61)) 0x20012300 0 =
      some (0xe8198ad166802b19, 0x002) := by decide +kernel

/-- 95_test_vectors.md section 4, MEM_ADMIT = [0x1000, 0x1040): one byte past the admitted range. -/
theorem test_hash_one_byte_past :
    verdict (machine { Config.platform with memAdmit := [⟨0x1000, 0x20⟩, ⟨0x1020, 0x20⟩] } [(1, 0x1000), (2, 0x41)] [])
      0x20512300 = some (0x404, 0x1040, 0x20512300) := by decide +kernel

/-- 95_test_vectors.md section 1.2: the recalled digests of `""`, "abc" and "message digest", on every short branch. -/
theorem test_wyhash_short_keys :
    wyhash [] ⟨0, 0, 0, Config.secretA⟩ = 0x0409638ee2bde459 ∧
    wyhash (bytesAt 0x2000 [0x61, 0x62, 0x63]) ⟨0x2000, 3, 2, Config.secretA⟩ = 0x32dd92e4b2915153 ∧
    wyhash (bytesAt 0 [0x6d, 0x65, 0x73, 0x73, 0x61, 0x67, 0x65, 0x20, 0x64, 0x69, 0x67, 0x65, 0x73, 0x74])
      ⟨0, 14, 3, Config.secretA⟩ = 0x8619124089a3a16b := by decide +kernel

/-- 95_test_vectors.md section 5, set B: lengths 17, 48 and 49. -/
theorem test_wyhash_long_keys :
    wyhash (keyK 0x61) ⟨0x1000, 17, 0, Config.secretB⟩ = 0xd29ffdd201a46f9a ∧
    wyhash (keyK 0x61) ⟨0x1000, 48, 0xffffffffffffffff, Config.secretB⟩ = 0x05f6a5142d3cdb56 ∧
    wyhash (keyK 0x61) ⟨0x1000, 49, 0, Config.secretB⟩ = 0x0691f11bac523a91 := by decide +kernel

/-- 95_test_vectors.md section 6, L = 48: SEE after FOLD. -/
theorem test_pipeline_trace_48 :
    (pipeRun (keyK 0x61) ⟨0x1000, 48, 0, Config.secretA⟩ 3 { Pipeline.zero with phase := .init }).see =
      0xb1e62de194274fb5 := by decide +kernel

/-! ### The host port: the rows of 95_test_vectors.md section 7.2, one step each -/

/-- After one host step. -/
def hosted (op : HostOp) (s : State) : Option State :=
  match step { s with schedule := [.host op] } with
  | .next t => some t
  | .fault _ => none
  | .refused _ => none

/-- Rows 1 and 2 of the table: X1 = 5, X2 = 7, `XOR x0, x1, x2` accepted, not committed. -/
def busyXor : State := acceptCommand 0x03012000 (machine Config.platform [(1, 5), (2, 7)] [])

theorem test_cmd_write_sets_busy :
    (hosted (.write 0x10 8 0x03012000) (machine Config.platform [(1, 5), (2, 7)] [])).map
      (fun t => statusWord t.status) = some 0x001 := by decide +kernel

theorem test_busy_read_returns_old_value :
    (hosted (.read 0x80 8) busyXor).map (fun t => t.observed) = some [.reg 0] := by decide +kernel

theorem test_busy_x_write_ignored :
    (hosted (.write 0x88 8 99) busyXor).map (fun t => (t.x[1], statusWord t.status)) = some (5, 0x009) := by
  decide +kernel

theorem test_clear_leaves_busy :
    (hosted (.write 0x00 8 1) { busyXor with status := statusOverrun busyXor.status }).map
      (fun t => (statusWord t.status, t.cur)) = some (0x001, 0x03012000) := by decide +kernel

theorem test_commit_of_xor :
    (match commit busyXor with | .next t => some (t.x[0], statusWord t.status) | _ => none) = some (2, 0x002) := by
  decide +kernel

theorem test_soft_reset_wins_over_clear :
    (hosted (.write 0x00 8 3) busyXor).map (fun t => (statusWord t.status, t.x[1], t.secret[0])) =
      some (0x000, 0, 0xa0761d6478bd642f) := by decide +kernel

theorem test_err_blocks_commands :
    (hosted (.write 0x10 8 0) (recordFault .range 0xfffffffffffffffe State.reset)).map (fun t => statusWord t.status) =
      some 0x30c := by decide +kernel

theorem test_memWrite_order :
    (hosted (.memWrite 0x2000 [0x61, 0x62]) State.reset).map (fun t => t.mem) =
      some [(0x2000, 0x61), (0x2001, 0x62)] := by decide +kernel

/-- 20_memory.md R46: held-back writes need not arrive in order: here the older of two to one byte arrives last. -/
theorem test_drain_any_order :
    let s := { State.reset with undrained := [⟨0x2000, [1]⟩, ⟨0x2000, [2]⟩] }
    (drainWrite 0 (drainWrite 1 s)).mem = [(0x2000, 1)] ∧ (drainWrite 1 s).undrained = [⟨0x2000, [1]⟩] := by
  decide +kernel

/-- 10_state.md R26: PTR has ADDR_W bits, also where the last BULK48 row ended at the top of memory. -/
theorem test_ptr_width : (latchPipe { Pipeline.zero with ptr := 2 ^ 64 } State.reset).pipe.ptr = 0 ∧
    (latchPipe { Pipeline.zero with ptr := 2 ^ 64 - 1 } State.reset).pipe.ptr = 2 ^ 64 - 1 := by decide +kernel

/-! ### Witnesses: for each statement a state and operands that meet its hypotheses -/

/-- Every byte of the 64-bit space is admitted on the platform of log 4. -/
theorem readable_platform {p n : Nat} (h : p + n ≤ 2 ^ 64) : Readable Config.platform p n := by
  refine ⟨h, fun b _ hb => ?_⟩
  have : b < 2 ^ 64 := Nat.lt_of_lt_of_le hb h
  simpa [admits, Config.platform, regionHolds] using this

/-- A state in which the host has written nothing since acceptance. -/
theorem untouched_of_none {s : State} (hb : s.busyWrites = []) (hu : s.undrained = []) (p n : Nat) :
    Untouched s p n := by
  rintro b - - (⟨w, hw, -⟩ | ⟨w, hw, -⟩)
  · simp [hb] at hw
  · simp [hu] at hw

/-- A command accepted with these operand registers on the platform of log 4. -/
def accepted (xs : List (Reg × Word)) (m : Memory) (i : Instr) : State :=
  acceptCommand (encode i) (machine Config.platform xs m)

theorem witness_DecodeOfEncode : (Instr.mum 15 0 15 15).wellFormed = true := by decide

theorem witness_EncodeOfDecode : decode 0x20FEDC00 = .ok (.hash 15 14 13 12) := by decide

/-- A selected row, a word no row selects, and a CUR with a nonzero upper half. -/
theorem witness_CommitDecodesByOpcodeMap :
    ((0x20FEDC00 : Word).extractLsb' 32 32 = 0 ∧
      ∃ r ∈ opcodeMap, (0x20FEDC00 : Word).extractLsb' 0 32 &&& r.mask = r.value) ∧
    (∀ r ∈ opcodeMap, (0x00000001 : Word).extractLsb' 0 32 &&& r.mask ≠ r.value) ∧
    (0x0000000100000000 : Word).extractLsb' 32 32 ≠ 0 := by decide

theorem witness_OpcodeRowsDisjoint : ∃ r ∈ opcodeMap, (0x12412000 : CmdWord) &&& r.mask = r.value := by decide

theorem witness_StepRunsDecodedCommand : busyXor.status.busy = true ∧ decode busyXor.cur = .ok (.xor 0 1 2) ∧
    (Instr.xor 0 1 2).wellFormed = true ∧ busyXor.schedule = [] ∧
    ({ busyXor with schedule := [.engine] } : State).schedule = .engine :: [] ∧
    ({ busyXor with schedule := [.host .poll] } : State).schedule = .host .poll :: [] := by decide

theorem witness_PlacedWordRunsNext : decodeTableWord 32 0x01134200 = some (.mum 1 2 3 4) := by decide

theorem witness_MumWritesExactProduct : (15 : Reg) ≠ 0 := by decide

/-- The last address from which 8 bytes can be read. -/
theorem witness_Rd8WritesLittleEndian :
    let s := accepted [(1, 0xfffffffffffffff8)] [] (.rd8 2 1)
    Readable s.config s.snapX[(1 : Reg)].toNat 8 ∧ Untouched s s.snapX[(1 : Reg)].toNat 8 :=
  ⟨readable_platform (by decide), untouched_of_none rfl rfl _ _⟩

theorem witness_Rd4WritesLittleEndian :
    let s := accepted [(1, 0xfffffffffffffffc)] [] (.rd4 2 1)
    Readable s.config s.snapX[(1 : Reg)].toNat 4 ∧ Untouched s s.snapX[(1 : Reg)].toNat 4 :=
  ⟨readable_platform (by decide), untouched_of_none rfl rfl _ _⟩

/-- k = 1 at the very last byte, and k = 3. -/
theorem witness_Rd3WritesPackedSample :
    (let s := accepted [(1, 0xffffffffffffffff), (2, 1)] [] (.rd3 4 1 2)
     1 ≤ s.snapX[(2 : Reg)].toNat ∧ s.snapX[(2 : Reg)].toNat ≤ 3 ∧
      Readable s.config s.snapX[(1 : Reg)].toNat s.snapX[(2 : Reg)].toNat ∧
      Untouched s s.snapX[(1 : Reg)].toNat s.snapX[(2 : Reg)].toNat) ∧
    (let s := accepted [(1, 0xfffffffffffffffd), (2, 3)] [] (.rd3 4 1 2)
     1 ≤ s.snapX[(2 : Reg)].toNat ∧ s.snapX[(2 : Reg)].toNat ≤ 3 ∧
      Readable s.config s.snapX[(1 : Reg)].toNat s.snapX[(2 : Reg)].toNat ∧
      Untouched s s.snapX[(1 : Reg)].toNat s.snapX[(2 : Reg)].toNat) :=
  ⟨⟨by decide, by decide, readable_platform (by decide), untouched_of_none rfl rfl _ _⟩,
    ⟨by decide, by decide, readable_platform (by decide), untouched_of_none rfl rfl _ _⟩⟩

/-- k = 0 and k = 4. -/
theorem witness_Rd3BadCountFaults :
    (accepted [] [] (.rd3 4 1 2)).snapX[(2 : Reg)].toNat = 0 ∧
      3 < (accepted [(2, 4)] [] (.rd3 4 1 2)).snapX[(2 : Reg)].toNat := by decide

/-- The empty key at the last address, and a key that ends at the top of memory. -/
theorem witness_HashWritesDigest :
    (let s := accepted [(1, 0xffffffffffffffff)] [] (.hash 0 1 2 3)
     s.snapX[(2 : Reg)] = 0 ∧ Untouched s s.snapX[(1 : Reg)].toNat s.snapX[(2 : Reg)].toNat) ∧
    (let s := accepted [(1, 0xffffffffffffffff), (2, 1)] [] (.hash 0 1 2 3)
     Readable s.config s.snapX[(1 : Reg)].toNat s.snapX[(2 : Reg)].toNat ∧
      Untouched s s.snapX[(1 : Reg)].toNat s.snapX[(2 : Reg)].toNat) :=
  ⟨⟨by decide, untouched_of_none rfl rfl _ _⟩, ⟨readable_platform (by decide), untouched_of_none rfl rfl _ _⟩⟩

theorem witness_HashOfEmptyKey : (accepted [(1, 0xffffffffffffffff)] [] (.hash 0 1 2 3)).snapX[(2 : Reg)] = 0 := by
  decide

/-- One byte past the top, for each of the four commands that read. -/
theorem witness_AccessPastTopRaisesRange :
    let s := accepted [(1, 0xfffffffffffffff9), (2, 0xfffffffffffffffd), (3, 0xffffffffffffffff), (4, 2)] [] .nop
    (Accesses s (.rd8 0 1) 0xfffffffffffffff9 8 ∧ 2 ^ s.config.addrW < (0xfffffffffffffff9 : Word).toNat + 8) ∧
    (Accesses s (.rd4 0 2) 0xfffffffffffffffd 4 ∧ 2 ^ s.config.addrW < (0xfffffffffffffffd : Word).toNat + 4) ∧
    (Accesses s (.rd3 0 3 4) 0xffffffffffffffff 2 ∧ 2 ^ s.config.addrW < (0xffffffffffffffff : Word).toNat + 2) ∧
    (Accesses s (.hash 0 3 4 5) 0xffffffffffffffff 2 ∧ 2 ^ s.config.addrW < (0xffffffffffffffff : Word).toNat + 2) := by
  unfold Accesses
  decide

/-- The platform of 95_test_vectors.md P3. -/
def narrowPlatform : Config := { Config.platform with memAdmit := [⟨0x1000, 0x61⟩] }

/-- P3 row 1 (a byte past the admitted region) for RD8 and HASH, row 7 (the start byte itself), and the last admitted
byte before the hole for RD4 and RD3. -/
theorem witness_AccessOfUnadmittedByteRaisesBus :
    let s := acceptCommand 0 (machine narrowPlatform [(1, 0x105c), (2, 0x0fff), (3, 8), (4, 0x1060), (5, 3)] [])
    s.config.wellFormed = true ∧ s.config.addrW = 64 ∧
      (Accesses s (.rd8 0 1) 0x105c 8 ∧ admits s.config 0x1061 = false ∧
        ∀ c, 0x105c ≤ c → c < 0x1061 → admits s.config c = true) ∧
      (Accesses s (.hash 0 1 3 0) 0x105c 8) ∧
      (Accesses s (.rd8 0 2) 0x0fff 8 ∧ admits s.config 0x0fff = false) ∧
      (Accesses s (.rd4 0 4) 0x1060 4 ∧ Accesses s (.rd3 0 4 5) 0x1060 3 ∧
        ∀ c, 0x1060 ≤ c → c < 0x1061 → admits s.config c = true) := by
  refine ⟨by decide, rfl, ⟨⟨by decide, rfl⟩, by decide, fun c h1 h2 => ?_⟩, ⟨by decide, by decide, by decide⟩,
    ⟨⟨by decide, rfl⟩, by decide⟩, ⟨by decide, rfl⟩, ⟨by decide, by decide, by decide, by decide⟩, fun c h1 h2 => ?_⟩ <;>
  · simp [admits, acceptCommand, machine, State.powerOn, narrowPlatform, regionHolds]
    omega

/-- The host writes the last byte that the running RD8 reads. -/
theorem witness_RacedAccessCompletesWithFreeValue :
    let s := hostWrite 7 [0xff] (accepted [] [] (.rd8 2 1))
    Accesses s (.rd8 2 1) 0 8 ∧ Readable s.config (0 : Word).toNat 8 ∧ ¬ Untouched s (0 : Word).toNat 8 := by
  refine ⟨⟨by decide, rfl⟩, readable_platform (by decide), fun h => h 7 (by decide) (by decide) ?_⟩
  exact .inl ⟨⟨7, 1⟩, by decide, by decide, by decide⟩

theorem witness_ComputeCommandFrame : (Instr.mix 3 1 2).opcode ∈ [Opcode.nop, .mum, .mix, .xor] ∧
    ∃ t, exec (.mix 3 1 2) busyXor = .next t := ⟨by decide, _, rfl⟩

theorem witness_ReaderCommandFrame : (Instr.rd3 3 1 2).opcode ∈ [Opcode.rd8, .rd4, .rd3] ∧
    ∃ t, exec (.rd3 3 1 2) busyXor = .next t := ⟨by decide, _, rfl⟩

theorem witness_HashCommandFrame : ∃ t, exec (.hash 0 1 2 3) busyXor = .next t := ⟨_, rfl⟩

/-- An empty schedule, an engine turn and a waiting POLL. -/
theorem witness_EngineNeverWritesMemory :
    (busyXor.schedule = [] ∧ ∃ t, step busyXor = .next t) ∧
    (∃ t, step { busyXor with schedule := [.engine] } = .next t) ∧
    (busyXor.status.busy = true ∧ ∃ t, step { busyXor with schedule := [.host .poll] } = .next t) :=
  ⟨⟨rfl, _, rfl⟩, ⟨_, rfl⟩, rfl, _, rfl⟩

/-- Two commits of one CMD value, on different memories. -/
theorem witness_VerdictIgnoresMemory : ∃ s' t',
    commit busyXor = .next s' ∧ commit { busyXor with mem := [(0, 1)] } = .next t' := ⟨_, _, rfl, rfl⟩

/-- A host write that ends just before the bytes read, and one that starts just after them. -/
theorem witness_UnrelatedHostWriteChangesNoResult :
    let s := accepted [(1, 0x1000)] [] (.rd8 2 1)
    Memory.wf s.mem = true ∧ decode s.cur = .ok (.rd8 2 1) ∧
      (∀ b, (readSpan s (.rd8 2 1)).addr ≤ b → b < (readSpan s (.rd8 2 1)).addr + (readSpan s (.rd8 2 1)).n →
        b < 0x1008 ∨ 0x1008 + ([1] : List Byte).length ≤ b) ∧
      (∀ b, (readSpan s (.rd8 2 1)).addr ≤ b → b < (readSpan s (.rd8 2 1)).addr + (readSpan s (.rd8 2 1)).n →
        b < 0xfff ∨ 0xfff + ([1] : List Byte).length ≤ b) := by
  have h : (readSpan (accepted [(1, 0x1000)] [] (.rd8 2 1)) (.rd8 2 1)) = ⟨0x1000, 8⟩ := by decide
  refine ⟨by decide, by decide, ?_, ?_⟩ <;> rw [h] <;> intro b h1 h2 <;> simp only [List.length_singleton] at * <;> omega

/-- The largest square of 32-bit operands. -/
theorem witness_MultiplyLaws : (0xFFFFFFFF : Word).toNat * (0xFFFFFFFF : Word).toNat < 2 ^ 64 := by decide

/-- BULK48 is entered with len = 48 (j = 0), LAST16 with len = 17 (j = 2). -/
theorem witness_PipelineInvariants :
    ((pipeStep [] ⟨0, 48, 0, Config.secretA⟩)^[0 + 1] { Pipeline.zero with phase := .init }).phase = .bulk48 ∧
    ((pipeStep [] ⟨0, 17, 0, Config.secretA⟩)^[2 + 1] { Pipeline.zero with phase := .init }).phase = .last16 := by
  decide +kernel

/-- Row len = 16 of the table of R80. -/
theorem witness_ShortKeyReadOffsets : ((16, 8, 0, 8, 12, 4) : Nat × Nat × Nat × Nat × Nat × Nat) ∈
    [(4, 0, 0, 0, 0, 0), (16, 8, 0, 8, 12, 4)] := by decide

/-- Two memories that differ in the byte after the key only. -/
theorem witness_DigestDependsOnKeyBytesOnly :
    let k : HashArgs := ⟨0x1000, 3, 0, Config.secretA⟩
    ∀ b, k.p0.toNat ≤ b → b < k.p0.toNat + k.len.toNat →
      Memory.byteAt [] b = Memory.byteAt [(0x1003, 1)] b := by
  intro k b h1 h2
  simp only [Memory.byteAt]
  rw [if_neg]
  rintro rfl
  exact absurd h2 (by decide)

theorem witness_PipelineRowUsesOnlyItsReads :
    let k : HashArgs := ⟨0x1000, 20, 0, Config.secretA⟩
    ∀ r ∈ rowReads k { Pipeline.zero with phase := .tail16, ptr := 0x1000, rem := 20 }, ∀ b, r.addr ≤ b →
      b < r.addr + r.n → Memory.byteAt [] b = Memory.byteAt [(0x1010, 1)] b := by
  intro k r hr b h1 h2
  have hr' : r = ⟨0x1000, 8⟩ ∨ r = ⟨0x1008, 8⟩ := by
    simpa [rowReads, Pipeline.zero] using hr
  simp only [Memory.byteAt]
  rw [if_neg]
  rintro rfl
  rcases hr' with rfl | rfl <;> exact absurd h2 (by decide)

/-- A state after reset whose next turn is this host step. -/
def hostNext (op : HostOp) : State := { State.reset with schedule := [.host op] }

/-- Accepted while idle, and ignored while busy or faulted. -/
theorem witness_CmdWriteRule :
    let op := HostOp.write (windowAddr Config.platform 0x10) 8 0xFFFFFFFFFFFFFFFF
    (hostNext op).config.wellFormed = true ∧ (hostNext op).schedule = .host op :: [] ∧
      (hostNext op).status.busy = false ∧ (hostNext op).status.err = false ∧ busyXor.status.busy = true ∧
      (recordFault .bus 0 State.reset).status.err = true := by decide

/-- X15 and SECRET3, the ends of their ranges. -/
theorem witness_RegisterWriteRule :
    (hostNext (.write (windowAddr Config.platform (0x80 + 8 * (15 : Reg).val)) 8 1)).schedule =
      .host (.write (windowAddr State.reset.config 0xF8) 8 1) :: [] ∧
    (hostNext (.write (windowAddr Config.platform (0x40 + 8 * (3 : SecretIdx).val)) 8 1)).schedule =
      .host (.write (windowAddr State.reset.config 0x58) 8 1) :: [] ∧ State.reset.config.wellFormed = true ∧
    State.reset.status.busy = false ∧ busyXor.status.busy = true ∧ busyXor.config.wellFormed = true := by decide

theorem witness_RegisterReadsReturnCurrentValue :
    (hostNext (.read (windowAddr Config.platform (0x80 + 8 * (15 : Reg).val)) 8)).schedule =
      .host (.read (windowAddr State.reset.config 0xF8) 8) :: [] ∧
    (hostNext (.read (windowAddr Config.platform (0x40 + 8 * (3 : SecretIdx).val)) 8)).schedule =
      .host (.read (windowAddr State.reset.config 0x58) 8) :: [] ∧
    (hostNext (.read (windowAddr Config.platform 0x08) 8)).schedule =
      .host (.read (windowAddr State.reset.config 0x08) 8) :: [] ∧ State.reset.config.wellFormed = true := by decide

theorem witness_OtherOffsetsReadAsMapped :
    (hostNext (.read (windowAddr Config.platform 0x78) 8)).schedule =
      .host (.read (windowAddr State.reset.config 0x78) 8) :: [] ∧
    (hostNext (.read (windowAddr Config.platform 0x18) 8)).schedule =
      .host (.read (windowAddr State.reset.config 0x18) 8) :: [] ∧
    (hostNext (.read (windowAddr Config.platform 0x20) 8)).schedule =
      .host (.read (windowAddr State.reset.config 0x20) 8) :: [] ∧
    0x78 ∈ [0x00, 0x10, 0x28, 0x30, 0x38, 0x60, 0x68, 0x70, 0x78] ∧ State.reset.config.wellFormed = true := by decide

/-- A reserved offset, and a CTRL write of every bit but CLR and SRST. -/
theorem witness_IgnoredWritesChangeNothing :
    (hostNext (.write (windowAddr Config.platform 0x78) 8 1)).schedule =
      .host (.write (windowAddr State.reset.config 0x78) 8 1) :: [] ∧
    0x78 ∈ [0x08, 0x18, 0x20, 0x28, 0x30, 0x38, 0x60, 0x68, 0x70, 0x78] ∧
    (hostNext (.write (windowAddr Config.platform 0x00) 8 0xFFFFFFFFFFFFFFFC)).schedule =
      .host (.write (windowAddr State.reset.config 0x00) 8 0xFFFFFFFFFFFFFFFC) :: [] ∧
    (0xFFFFFFFFFFFFFFFC : Word).getLsbD 0 = false ∧ (0xFFFFFFFFFFFFFFFC : Word).getLsbD 1 = false ∧
    State.reset.config.wellFormed = true := by decide

/-- CLR with every ignored bit set too, and a CMD write behind it. -/
theorem witness_ClearRule :
    let c := Turn.host (.write (windowAddr Config.platform 0x00) 8 0xFFFFFFFFFFFFFFFD)
    let d := Turn.host (.write (windowAddr Config.platform 0x10) 8 0x03012000)
    let s := { recordFault .bus 5 State.reset with schedule := [c, d] }
    s.config.wellFormed = true ∧ (0xFFFFFFFFFFFFFFFD : Word).getLsbD 0 = true ∧
      (0xFFFFFFFFFFFFFFFD : Word).getLsbD 1 = false ∧ s.schedule = c :: [d] ∧ s.status.busy = false := by decide

/-- A hardware reset and a soft reset (with CLR too), both while a command runs. -/
theorem witness_BothResetsReachTheResetState :
    let s := { busyXor with schedule := [.reset] }
    let t := { busyXor with schedule := [.host (.write (windowAddr Config.platform 0x00) 8 3)] }
    s.config.wellFormed = true ∧ s.schedule = .reset :: [] ∧ (3 : Word).getLsbD 1 = true ∧
      t.schedule = .host (.write (windowAddr t.config 0x00) 8 3) :: [] := by decide

/-- A byte access of X0 and the offset past the window do not conform; X15 does. -/
theorem witness_NonconformingAccessRefused : State.reset.config.wellFormed = true ∧
    ¬ (4 = 8 ∧ 0x80 % 8 = 0 ∧ State.reset.config.engineBase ≤ 0x80 ∧ 0x80 ≤ State.reset.config.engineBase + 0xF8) ∧
    ¬ (8 = 8 ∧ 0x100 % 8 = 0 ∧ State.reset.config.engineBase ≤ 0x100 ∧ 0x100 ≤ State.reset.config.engineBase + 0xF8) ∧
    (8 = 8 ∧ 0xF8 % 8 = 0 ∧ State.reset.config.engineBase ≤ 0xF8 ∧ 0xF8 ≤ State.reset.config.engineBase + 0xF8) := by
  decide

/-- The two last bytes of memory, written at once and held back. -/
theorem witness_HostMemWriteRule :
    let op := HostOp.memWrite 0xfffffffffffffffe [1, 2]
    let q := [Turn.host (.postWrite 0xfffffffffffffffe [1, 2]), .host (.drain 0)]
    let s := { State.reset with schedule := q }
    MemoryInv (hostNext op) ∧ 0xfffffffffffffffe + ([1, 2] : List Byte).length ≤ 2 ^ (hostNext op).config.addrW ∧
      (hostNext op).schedule = .host op :: [] ∧ MemoryInv s ∧ s.undrained.length = 0 ∧ s.schedule = q :=
  ⟨⟨by decide, by simp [hostNext, State.reset, State.powerOn], by simp [hostNext, State.reset, State.powerOn]⟩,
    by decide, rfl, ⟨by decide, by simp [State.reset, State.powerOn], by simp [State.reset, State.powerOn]⟩, rfl, rfl⟩

/-- A CLR of a running command's STATUS. -/
theorem witness_RunningCommandUndisturbed :
    let op := HostOp.write 0x00 8 1
    let s := { busyXor with schedule := [.host op] }
    s.status.busy = true ∧ WindowAccess s.config op ∧ s.schedule = .host op :: [] ∧ ∃ t, step s = .next t :=
  ⟨rfl, ⟨0, by decide, by decide⟩, rfl, _, rfl⟩

theorem witness_CommitAlwaysEnabled : busyXor.status.busy = true ∧ busyXor.schedule = [] ∧
    ({ busyXor with schedule := [.engine] } : State).schedule = .engine :: [] ∧
    ({ busyXor with schedule := [.host .poll] } : State).schedule = .host .poll :: [] := by decide

/-- The invariant holds of a machine with a command running, whatever turns are to come. -/
theorem busyXor_inv (q : List Turn) : Inv { busyXor with schedule := q } where
  platform := show Config.platform.wellFormed = true by decide
  memory := ⟨rfl, fun c hc => by simp [busyXor, acceptCommand, machine] at hc,
    fun w hw => by simp [busyXor, acceptCommand, machine, State.powerOn] at hw⟩
  cycle := ⟨fun _ => ⟨rfl, rfl⟩, fun _ => rfl, rfl, fun _ => ⟨rfl, rfl⟩, fun _ => rfl,
    (fun h => by cases h), fun _ => ⟨rfl, rfl⟩, fun _ => rfl⟩
  pointer := Nat.two_pow_pos _

/-- A read, a lost write and a CLR come before the commit. -/
theorem witness_ResultIndependentOfCommitTime :
    let ops := [HostOp.read 0x80 8, .write 0x88 8 99, .write 0x00 8 1]
    let s := { busyXor with schedule := ops.map Turn.host ++ [.engine] }
    Inv s ∧ s.status.busy = true ∧ (∀ op ∈ ops, WindowAccess s.config op) ∧
      s.schedule = ops.map Turn.host ++ [.engine] ∧ ∃ u, commit s = .next u := by
  refine ⟨busyXor_inv _, rfl, fun op h => ?_, rfl, _, rfl⟩
  simp only [List.mem_cons, List.not_mem_nil, or_false] at h
  rcases h with rfl | rfl | rfl
  · show (accessOffset Config.platform 0x80 8).isSome = true
    decide
  · exact ⟨0x88, by decide, by decide⟩
  · exact ⟨0x00, by decide, by decide⟩

theorem witness_PollThenReadSeesCommit :
    let q := [Turn.host .poll, .host (.read (windowAddr Config.platform (0x80 + 8 * (0 : Reg).val)) 8)]
    let s := { busyXor with schedule := q }
    s.config.wellFormed = true ∧ s.status.busy = true ∧ s.schedule = q ∧ ∃ u, commit s = .next u :=
  ⟨by decide, rfl, rfl, _, rfl⟩

/-- A machine just after power-on, its operand registers set, meets the invariant whatever turns are to come. -/
theorem machine_inv (xs : List (Reg × Word)) (q : List Turn) :
    Inv { machine Config.platform xs [] with schedule := q } where
  platform := show Config.platform.wellFormed = true by decide
  memory := ⟨rfl, fun c hc => by simp [machine] at hc, fun w hw => by simp [machine, State.powerOn] at hw⟩
  cycle := ⟨(fun h => by cases h), fun _ => rfl, rfl, fun _ => ⟨rfl, rfl⟩, fun _ => rfl,
    (fun h => by cases h), (fun h => by cases h), fun _ => rfl⟩
  pointer := Nat.two_pow_pos _

/-- The host writes the last 8 bytes of memory; each of the four commands that read them. -/
theorem witness_CommandSeesEarlierHostWrite :
    let xs : List (Reg × Word) := [(1, 0xfffffffffffffff8), (2, 3), (3, 8)]
    let s (i : Instr) : State := { machine Config.platform xs [] with
      schedule := [.host (.memWrite 0xfffffffffffffff8 [1, 2, 3, 4, 5, 6, 7, 8]),
        .host (.write (windowAddr Config.platform 0x10) 8 (encode i)), .engine] }
    (∀ i, Inv (s i) ∧ (s i).status.busy = false ∧ (s i).status.err = false ∧
      ∀ n ≤ 8, Readable (s i).config (0xfffffffffffffff8 : Word).toNat n ∧
        Untouched (s i) (0xfffffffffffffff8 : Word).toNat n) ∧
    0xfffffffffffffff8 + ([1, 2, 3, 4, 5, 6, 7, 8] : List Byte).length ≤ 2 ^ Config.platform.addrW ∧
    Accesses (acceptCommand (encode (.rd8 0 1)) (s (.rd8 0 1))) (.rd8 0 1) 0xfffffffffffffff8 8 ∧
    Accesses (acceptCommand (encode (.rd4 0 1)) (s (.rd4 0 1))) (.rd4 0 1) 0xfffffffffffffff8 4 ∧
    Accesses (acceptCommand (encode (.rd3 0 1 2)) (s (.rd3 0 1 2))) (.rd3 0 1 2) 0xfffffffffffffff8 3 ∧
    Accesses (acceptCommand (encode (.hash 0 1 3 4)) (s (.hash 0 1 3 4))) (.hash 0 1 3 4) 0xfffffffffffffff8 8 := by
  refine ⟨fun i => ⟨machine_inv _ _, rfl, rfl, fun n hn => ⟨readable_platform ?_, untouched_of_none rfl rfl _ _⟩⟩,
    by decide, ⟨by decide, rfl⟩, ⟨by decide, rfl⟩, ⟨by decide, by decide, by decide, by decide⟩,
    ⟨by decide, by decide, by decide⟩⟩
  rw [show (0xfffffffffffffff8 : Word).toNat = 0xfffffffffffffff8 from rfl]
  omega

/-- A recorded fault, and a CMD write that does not disturb it. -/
theorem witness_FirstFaultIsKept :
    let op := HostOp.write 0x10 8 0
    let s := { recordFault .range 0xfffffffffffffffe State.reset with schedule := [.host op] }
    Inv s ∧ s.status.err = true ∧ (∀ rest, s.schedule ≠ .reset :: rest) ∧
      (∀ rest addr width v, s.schedule = .host (.write addr width v) :: rest →
        accessOffset s.config addr width = some 0x00 → v.getLsbD 0 = false ∧ v.getLsbD 1 = false) ∧
      ∃ t, step s = .next t := by
  refine ⟨⟨by decide, ⟨rfl, fun c hc => by simp [recordFault, State.reset, State.powerOn] at hc,
    fun w hw => by simp [recordFault, State.reset, State.powerOn] at hw⟩, ?_, Nat.two_pow_pos _⟩, rfl, by simp, ?_, _, rfl⟩
  · exact ⟨(fun h => by cases h), (fun h => by cases h), rfl, (fun h => by cases h),
      (fun h => by rcases h with h | h <;> cases h), (fun h => by cases h), (fun h => by cases h), fun _ => rfl⟩
  · intro rest addr width v h
    simp only [List.cons.injEq, Turn.host.injEq, HostOp.write.injEq] at h
    obtain ⟨⟨-, -, rfl⟩, -⟩ := h
    exact fun _ => ⟨by decide, by decide⟩

/-- A commit that faults: the word is illegal, so FAULT_CMD changes. -/
theorem witness_FaultRecordChangesOnlyAtFaultCommit :
    let s := acceptCommand 0x00000001 State.reset
    ∃ t, step s = .next t ∧ t.faultCmd ≠ s.faultCmd := ⟨recordFault .illegal 0 _, rfl, by decide⟩

theorem witness_IdleEngineHasNoStep : State.reset.status.busy = false ∧ State.reset.schedule = [] ∧
    ({ State.reset with schedule := [.engine] } : State).schedule = .engine :: [] := by decide

theorem witness_EveryStepKeepsTheInvariant : Inv busyXor ∧ ∃ t, step busyXor = .next t :=
  ⟨busyXor_inv [], _, rfl⟩

/-- A platform at the other end of its bounds. -/
theorem witness_PowerOnMeetsTheInvariant :
    ({ Config.platform with addrW := 1, engineBase := 0x100, memAdmit := [] } : Config).wellFormed = true := by decide

theorem witness_NoStepChangesThePlatform : ∃ t, step busyXor = .next t := ⟨_, rfl⟩

/-- Different pipeline registers while a command runs; different CUR as well while none does. -/
theorem witness_HiddenStateIsUnobservable :
    SameToHost busyXor { busyXor with pipe := { Pipeline.zero with see := 1 } } ∧
      SameToHost State.reset { State.reset with cur := 1 } :=
  ⟨⟨rfl, rfl, rfl, rfl, rfl, rfl, rfl, rfl, rfl, rfl, rfl, fun _ => ⟨rfl, rfl, rfl, rfl⟩⟩,
    ⟨rfl, rfl, rfl, rfl, rfl, rfl, rfl, rfl, rfl, rfl, rfl, fun h => by cases h⟩⟩

end Sys2Proof.Tests
end

/-! ## Proofs: the state and the command life cycle (10_state.md) -/

namespace Sys2Proof.Machine

/-! ### The digest of the pipeline's rows

From any register contents the rows of R89 compute the digest of R77, so the hidden registers a HASH starts from do
not reach its result. -/

section

variable {m : Memory} {k : HashArgs} {p : Pipeline}

/-- The digest that R77 computes from the variables its loops leave: the last two reads, then the finaliser. -/
def digestAfterLoops (m : Memory) (k : HashArgs) (l : LoopVars) : Word :=
  finalise (rd8 m (l.p + l.i - 16)) (rd8 m (l.p + l.i - 8)) l.see k.len k.S

/-- The three accumulators folded into one, as between the loops of R77. -/
def foldVars (l : LoopVars) : LoopVars := { l with see := l.see ^^^ l.see1 ^^^ l.see2 }

/-- The pipeline's registers as the loop variables of R77. -/
def loopVarsOf (p : Pipeline) : LoopVars := ⟨p.see, p.see1, p.see2, p.ptr, p.rem.toNat⟩

theorem pipeFinish_digest (k : HashArgs) (p : Pipeline) :
    (pipeFinish k p).2 = finalise p.a p.b p.see k.len k.S := rfl

theorem wyhash_short (h : k.len.toNat ≤ 16) :
    wyhash m k = finalise (shortReads m k.p0.toNat k.len.toNat).1 (shortReads m k.p0.toNat k.len.toNat).2
      (whiten k.seed k.S) k.len k.S := if_pos h

theorem wyhash_long (h : 16 < k.len.toNat) :
    wyhash m k = digestAfterLoops m k (longLoops m k.S k.p0.toNat k.len.toNat (whiten k.seed k.S)) :=
  if_neg (Nat.not_le.mpr h)

theorem longLoops_bulk {S : Vector Word 4} {a n : Nat} {see : Word} (h : 48 ≤ n) :
    longLoops m S a n see = tailLoop m S (n / 16) (foldVars (bulkLoop m S (n / 48) ⟨see, see, see, a, n⟩)) :=
  if_pos h

theorem longLoops_tail {S : Vector Word 4} {a n : Nat} {see : Word} (h : n < 48) :
    longLoops m S a n see = tailLoop m S (n / 16) ⟨see, see, see, a, n⟩ := if_neg (Nat.not_le.mpr h)

/-- With 16 bytes or fewer left, the rows TAIL16 and LAST16 do the last reads of R77. -/
theorem pipeRun_tail16_last {f : Nat} {see1 see2 : Word} (hp : p.phase = .tail16) (hr : p.rem.toNat ≤ 16) :
    (pipeFinish k (pipeRun m k (f + 2) p)).2 = digestAfterLoops m k ⟨p.see, see1, see2, p.ptr, p.rem.toNat⟩ := by
  rw [pipeRun_succ _ (by simp [hp]), pipeStep_tail16_leave hp hr, pipeRun_succ _ (by simp), pipeStep_last16 rfl,
    pipeRun_final _ rfl]
  rfl

/-- The rows from TAIL16 on compute what the 16-byte loop and the last reads of R77 do. -/
theorem pipeRun_tail16_digest {f g : Nat} {see1 see2 : Word} (hp : p.phase = .tail16)
    (hf : p.rem.toNat / 16 + 2 ≤ f) (hg : p.rem.toNat / 16 ≤ g) :
    (pipeFinish k (pipeRun m k f p)).2 =
      digestAfterLoops m k (tailLoop m k.S g ⟨p.see, see1, see2, p.ptr, p.rem.toNat⟩) := by
  induction g generalizing f p with
  | zero =>
    obtain ⟨f, rfl⟩ : ∃ f', f = f' + 2 := ⟨f - 2, by omega⟩
    exact pipeRun_tail16_last hp (by omega)
  | succ g ih =>
    obtain ⟨f, rfl⟩ : ∃ f', f = f' + 2 := ⟨f - 2, by omega⟩
    by_cases hr : 16 < p.rem.toNat
    · have hsub : (p.rem - 16).toNat = p.rem.toNat - 16 := toNat_sub_small p.rem 16 (by decide) (by omega)
      rw [pipeRun_succ _ (by simp [hp]), pipeStep_tail16_more hp hr, tailLoop_more m k.S g hr, ← hsub]
      exact ih hp (by simp only [hsub]; omega) (by simp only [hsub]; omega)
    · rw [tailLoop_leave m k.S _ (by simpa using hr)]
      exact pipeRun_tail16_last hp (by omega)

/-- A row BULK48 is one pass of the 48-byte loop of R77. -/
theorem loopVarsOf_pipeStep_bulk48 (hp : p.phase = .bulk48) (hr : 48 ≤ p.rem.toNat) :
    loopVarsOf (pipeStep m k p) = bulkPass m k.S (loopVarsOf p) := by
  have hsub : (p.rem - 48).toNat = p.rem.toNat - 48 := toNat_sub_small p.rem 48 (by decide) hr
  simp only [pipeStep_bulk48 hp, loopVarsOf, bulkPass, hsub]

/-- The row BULK48 repeats while a whole block is left, and goes on to FOLD otherwise. -/
theorem pipeStep_bulk48_phase (hp : p.phase = .bulk48) (hr : 48 ≤ p.rem.toNat) :
    (pipeStep m k p).phase = if 48 ≤ p.rem.toNat - 48 then .bulk48 else .fold := by
  have hsub : (p.rem - 48).toNat = p.rem.toNat - 48 := toNat_sub_small p.rem 48 (by decide) hr
  simp only [pipeStep_bulk48 hp, hsub]

/-- The rows from BULK48 on compute what the 48-byte loop, its fold and the rest of R77 do. -/
theorem pipeRun_bulk48_digest {f g n : Nat} (hp : p.phase = .bulk48) (hr : 48 ≤ p.rem.toNat)
    (hf : p.rem.toNat / 16 + 3 ≤ f) (hg : p.rem.toNat / 16 ≤ g) (hn : p.rem.toNat / 48 ≤ n) :
    (pipeFinish k (pipeRun m k f p)).2 =
      digestAfterLoops m k (tailLoop m k.S g (foldVars (bulkLoop m k.S n (loopVarsOf p)))) := by
  induction n generalizing f p with
  | zero => omega
  | succ n ih =>
    have hpass := loopVarsOf_pipeStep_bulk48 (m := m) (k := k) hp hr
    have hphase := pipeStep_bulk48_phase (m := m) (k := k) hp hr
    have hrem : (pipeStep m k p).rem.toNat = p.rem.toNat - 48 := congrArg LoopVars.i hpass
    obtain ⟨f, rfl⟩ : ∃ f', f = f' + 2 := ⟨f - 2, by omega⟩
    rw [pipeRun_succ _ (by simp [hp])]
    by_cases hmore : 48 ≤ p.rem.toNat - 48
    · rw [if_pos hmore] at hphase
      rw [bulkLoop_more m k.S n (l := loopVarsOf p) hmore, ← hpass]
      exact ih hphase (by omega) (by omega) (by omega) (by omega)
    · rw [if_neg hmore] at hphase
      rw [bulkLoop_last m k.S n (l := loopVarsOf p) (Nat.not_le.mp hmore), ← hpass, pipeRun_succ _ (by simp [hphase])]
      generalize pipeStep m k p = q at hphase hrem
      rw [pipeStep_fold hphase]
      exact pipeRun_tail16_digest rfl (by simp only; omega) (by simp only; omega)

/-- The state machine of R89 computes the digest of R77, whatever its registers held before. -/
theorem pipeline_digest (m : Memory) (k : HashArgs) (p : Pipeline) : (pipeline m k p).2 = wyhash m k := by
  show (pipeFinish k (pipeRun m k (k.len.toNat / 16 + 3 + 1) { p with phase := .init })).2 = _
  rw [pipeRun_succ _ (by simp)]
  by_cases h16 : k.len.toNat ≤ 16
  · rw [pipeStep_init_short rfl h16, pipeRun_succ _ (by simp), pipeStep_short rfl, pipeRun_final _ rfl,
      pipeFinish_digest, wyhash_short h16]
  rw [wyhash_long (by omega)]
  by_cases h48 : 48 ≤ k.len.toNat
  · rw [pipeStep_init_bulk rfl h48, longLoops_bulk h48]
    exact pipeRun_bulk48_digest rfl h48 (Nat.le_refl _) (Nat.le_refl _) (Nat.le_refl _)
  · rw [pipeStep_init_tail rfl (by omega) (by omega), longLoops_tail (by omega)]
    exact pipeRun_tail16_digest rfl (Nat.le_succ _) (Nat.le_refl _)

end

/-! ### The commit as one function of the state

What a commit does in two parts: its verdict, from the command, the snapshot and the platform alone (10_state.md R29),
and what a completion leaves. -/

/-- The fault a command raises, and its address; `none` where it completes. -/
def verdict (s : State) : Instr → Option (Cause × Word)
  | .nop => none
  | .mum xlo xhi _ _ => if xlo = xhi then some (.operand, 0) else none
  | .mix _ _ _ => none
  | .xor _ _ _ => none
  | .rd8 _ xaddr => checkAccess s.config (source s xaddr) 8
  | .rd4 _ xaddr => checkAccess s.config (source s xaddr) 4
  | .rd3 _ xaddr xk =>
    if (source s xk).toNat = 0 ∨ (source s xk).toNat > 3 then some (.operand, 0)
    else checkAccess s.config (source s xaddr) (source s xk).toNat
  | .hash _ xaddr xlen xseed => hashCheck s.config (hashArgs xaddr xlen xseed s)

/-- The host touched a byte that the command reads (20_memory.md R47). -/
def readRaced (s : State) (i : Instr) : Bool := raced s (readSpan s i).addr (readSpan s i).n

/-- The free values a raced command draws for hidden registers, before the one for its destination (log 10). -/
def hiddenDraws : Instr → Nat
  | .hash _ _ _ _ => 5
  | _ => 0

/-- The free values a completing command draws. -/
def draws (s : State) (i : Instr) : Nat := if readRaced s i then hiddenDraws i + 1 else 0

/-- The destination of a command that reads memory: what it computed, or a free value where the read raced. -/
def loaded (s : State) (i : Instr) : Word :=
  if readRaced s i then Config.freeValue (s.freeIdx + hiddenDraws i) else readValue s.mem s i

/-- The registers a completing command writes, with their values. -/
def writesOf (s : State) : Instr → List (Reg × Word)
  | .nop => []
  | .mum xlo xhi xa xb =>
    [(xlo, (mum (source s xa) (source s xb)).1), (xhi, (mum (source s xa) (source s xb)).2)]
  | .mix xd xa xb => [(xd, mix (source s xa) (source s xb))]
  | .xor xd xa xb => [(xd, source s xa ^^^ source s xb)]
  | .rd8 xd xaddr => [(xd, loaded s (.rd8 xd xaddr))]
  | .rd4 xd xaddr => [(xd, loaded s (.rd4 xd xaddr))]
  | .rd3 xd xaddr xk => [(xd, loaded s (.rd3 xd xaddr xk))]
  | .hash xd xaddr xlen xseed => [(xd, loaded s (.hash xd xaddr xlen xseed))]

/-- The pipeline registers a completing command leaves: those of a HASH its rows leave, scrambled where it raced. -/
def pipeAfter (s : State) : Instr → Pipeline
  | .hash xd xaddr xlen xseed =>
    let p := (pipeline s.mem (hashArgs xaddr xlen xseed s) s.pipe).1
    if readRaced s (.hash xd xaddr xlen xseed) then (scramblePipe p s).pipe else (latchPipe p s).pipe
  | _ => s.pipe

/-- The state a completing command leaves. -/
def completion (i : Instr) (s : State) : State :=
  commitOk (writesOf s i) (drawn (draws s i) { s with pipe := pipeAfter s i })

/-- A read of no bytes races with nothing. -/
theorem raced_no_bytes (s : State) (addr : Nat) : raced s addr 0 = false :=
  (raced_eq_false_iff s addr 0).mpr (fun _ _ _ => by omega)

/-- A command that reads no memory and leaves the pipeline alone completes as a plain commit of its registers. -/
theorem completion_of_no_read {i : Instr} {s : State} (hn : (readSpan s i).n = 0) (hp : pipeAfter s i = s.pipe) :
    completion i s = commitOk (writesOf s i) s := by
  have hr : readRaced s i = false := by rw [readRaced, hn, raced_no_bytes]
  simp only [completion, draws, hr, hp]
  rfl

/-- The commit of a load that draws no more than its one free value. -/
theorem commitLoad_eq (rd : Reg) (addr n : Nat) (v : Word) (s : State) :
    commitLoad rd addr n v s =
      commitOk [(rd, if raced s addr n then Config.freeValue s.freeIdx else v)]
        (drawn (if raced s addr n then 1 else 0) s) := by
  unfold commitLoad
  split <;> rfl

/-- The commit of a HASH that passes its check. -/
theorem commitLoad_hash (xd xaddr xlen xseed : Reg) (s : State) :
    let k := hashArgs xaddr xlen xseed s
    let r := pipeline s.mem k s.pipe
    commitLoad xd k.p0.toNat k.len.toNat r.2
      (if raced s k.p0.toNat k.len.toNat then scramblePipe r.1 s else latchPipe r.1 s) =
        completion (.hash xd xaddr xlen xseed) s := by
  intro k r
  cases h : raced s k.p0.toNat k.len.toNat with
  | false =>
    have hr : readRaced s (.hash xd xaddr xlen xseed) = false := h
    have hl : raced (latchPipe r.1 s) k.p0.toNat k.len.toNat = false := h
    simp only [commitLoad, hl, Bool.false_eq_true, if_false, completion, writesOf, loaded, draws, pipeAfter, hr, r,
      pipeline_digest]
    rfl
  | true =>
    have hr : readRaced s (.hash xd xaddr xlen xseed) = true := h
    have hl : raced (scramblePipe r.1 s) k.p0.toNat k.len.toNat = true := h
    simp only [commitLoad, hl, if_true, completion, writesOf, loaded, draws, pipeAfter, hr]
    rfl

/-- A command whose verdict is a fault records it. -/
theorem exec_of_fault {i : Instr} {s : State} {c : Cause} {a : Word} (h : verdict s i = some (c, a)) :
    exec i s = .next (recordFault c a s) := by
  cases i with
  | nop | mix | xor => cases h
  | mum xlo xhi xa xb =>
    simp only [verdict] at h
    split at h
    · cases h
      simp only [exec, execMum, if_pos ‹xlo = xhi›]
    · cases h
  | rd8 | rd4 => simp only [exec, execRd8, execRd4, show checkAccess _ _ _ = _ from h]
  | rd3 xd xaddr xk =>
    simp only [verdict] at h
    simp only [exec, execRd3]
    split at h
    · cases h
      rw [if_pos ‹_›]
    · rw [if_neg ‹_›, h]
  | hash xd xaddr xlen xseed => simp only [exec, execHash, show hashCheck _ _ = _ from h]

/-- A command with no fault in its verdict completes. -/
theorem exec_of_none {i : Instr} {s : State} (h : verdict s i = none) : exec i s = .next (completion i s) := by
  cases i with
  | nop | mix | xor =>
    rw [completion_of_no_read rfl rfl]
    rfl
  | mum xlo xhi xa xb =>
    simp only [verdict] at h
    split at h
    · cases h
    · rw [completion_of_no_read rfl rfl]
      simp only [exec, execMum, if_neg ‹¬ xlo = xhi›, writesOf]
  | rd8 | rd4 =>
    simp only [exec, execRd8, execRd4, show checkAccess _ _ _ = _ from h, commitLoad_eq]
    rfl
  | rd3 xd xaddr xk =>
    simp only [verdict] at h
    simp only [exec, execRd3]
    split at h
    · cases h
    · rw [if_neg ‹_›, h]
      simp only [commitLoad_eq]
      rfl
  | hash xd xaddr xlen xseed =>
    simp only [exec, execHash, show hashCheck _ _ = _ from h]
    exact congrArg _ (commitLoad_hash xd xaddr xlen xseed s)

/-- The verdict of the commit: ILLEGAL at address 0 on an undecodable CUR, else that of the command
(10_state.md R29). -/
def commitVerdict (s : State) : Option (Cause × Word) :=
  match decode s.cur with
  | .ok i => verdict s i
  | .error _ => some (.illegal, 0)

theorem commitVerdict_of_decode {s : State} {i : Instr} (h : decode s.cur = .ok i) :
    commitVerdict s = verdict s i := by simp only [commitVerdict, h]

theorem commit_of_decode {s : State} {i : Instr} (h : decode s.cur = .ok i) : commit s = exec i s := by
  simp only [commit, h]

/-- A command records the fault of its verdict, or completes. -/
theorem exec_verdict (i : Instr) (s : State) :
    (∃ c a, verdict s i = some (c, a) ∧ exec i s = .next (recordFault c a s)) ∨
      (verdict s i = none ∧ exec i s = .next (completion i s)) := by
  cases h : verdict s i with
  | none => exact .inr ⟨rfl, exec_of_none h⟩
  | some q => exact .inl ⟨q.1, q.2, rfl, exec_of_fault h⟩

/-- A commit records the fault of its verdict, or completes its command. -/
theorem commit_verdict (s : State) :
    (∃ c a, commitVerdict s = some (c, a) ∧ commit s = .next (recordFault c a s)) ∨
      (∃ i, commitVerdict s = none ∧ decode s.cur = .ok i ∧ commit s = .next (completion i s)) := by
  cases hd : decode s.cur with
  | error r => exact .inl ⟨.illegal, 0, by simp only [commitVerdict, hd], by simp only [commit, hd]⟩
  | ok i =>
    rw [commitVerdict_of_decode hd, commit_of_decode hd]
    rcases exec_verdict i s with h | ⟨hv, he⟩
    · exact .inl h
    · exact .inr ⟨i, hv, rfl, he⟩

/-! ### Frames and verdicts of every commit -/

theorem writesOf_dests (s : State) (i : Instr) : (writesOf s i).map Prod.fst = dests i := by
  cases i <;> rfl

/-- A recorded fault changes STATUS and the fault record, whatever registers the command would have written. -/
theorem recordFault_frame (ws : List Reg) (c : Cause) (a : Word) (s : State) :
    CommitFrame ws s (recordFault c a s) :=
  ⟨fun _ _ => rfl, rfl, rfl, rfl, rfl, rfl, rfl, fun _ => rfl, rfl, rfl, rfl⟩

theorem recordFault_faulted (c : Cause) (a : Word) (s : State) : Faulted c a s (recordFault c a s) :=
  ⟨rfl, rfl, rfl, rfl, rfl⟩

theorem completion_frame (i : Instr) (s : State) : CommitFrame (dests i) s (completion i s) where
  regs _ hr := writeRegs_other (writesOf_dests s i ▸ hr)
  secret := rfl
  config := rfl
  cur := rfl
  snapX := rfl
  snapS := rfl
  ovr := rfl
  mem _ := rfl
  schedule := rfl
  observed := rfl
  undrained := rfl

theorem completion_completed (i : Instr) (s : State) : Completed s (completion i s) := ⟨rfl, rfl, rfl⟩

/-- What a command leaves: a precise fault, or its completion (10_state.md R29; 60_exceptions.md R94). -/
theorem exec_next {s t : State} {i : Instr} (h : exec i s = .next t) :
    CommitFrame (dests i) s t ∧
      (((∃ c a, Faulted c a s t) ∧ t.pipe = s.pipe ∧ t.freeIdx = s.freeIdx) ∨
        (Completed s t ∧ t = completion i s)) := by
  rcases exec_verdict i s with ⟨c, a, -, he⟩ | ⟨-, he⟩
  · cases he.symm.trans h
    exact ⟨recordFault_frame _ c a s, .inl ⟨⟨c, a, recordFault_faulted c a s⟩, rfl, rfl⟩⟩
  · cases he.symm.trans h
    exact ⟨completion_frame i s, .inr ⟨completion_completed i s, rfl⟩⟩

/-- A completion that faulted would have both set and cleared DONE. -/
theorem not_faulted_of_completed {s t : State} {c : Cause} {a : Word} (h : Completed s t) : ¬ Faulted c a s t := by
  intro hf
  have := congrArg Status.done (h.status.symm.trans hf.status)
  cases this

theorem recordFault_faulted_iff {s : State} {c c' : Cause} {a a' : Word} :
    Faulted c a s (recordFault c' a' s) ↔ c' = c ∧ a' = a := by
  constructor
  · intro h
    exact ⟨Option.some.inj (congrArg Status.cause h.status), h.faultAddr⟩
  · rintro ⟨rfl, rfl⟩
    exact recordFault_faulted _ _ s

/-- A commit records cause `c` at address `a` exactly if that is its verdict. -/
theorem faulted_iff_commitVerdict {s t : State} (h : commit s = .next t) (c : Cause) (a : Word) :
    Faulted c a s t ↔ commitVerdict s = some (c, a) := by
  rcases commit_verdict s with ⟨c', a', hv, he⟩ | ⟨i, hv, -, he⟩
  · cases he.symm.trans h
    rw [recordFault_faulted_iff, hv, Option.some.injEq, Prod.mk.injEq]
  · cases he.symm.trans h
    rw [hv]
    exact iff_of_false (not_faulted_of_completed (completion_completed i s)) nofun

/-- The read port's check uses of a platform its ADDR_W and its MEM_ADMIT only. -/
theorem checkAccess_congr {c d : Config} (hw : c.addrW = d.addrW) (ha : c.memAdmit = d.memAdmit) :
    checkAccess c = checkAccess d := by
  funext addr n
  simp only [checkAccess, lowestBad, hw, ha]

theorem verdict_congr {s t : State} (hx : s.snapX = t.snapX) (hc : checkAccess s.config = checkAccess t.config)
    (i : Instr) : verdict s i = verdict t i := by
  have hs : source s = source t := by funext r; simp only [source, hx]
  cases i with
  | hash xd xaddr xlen xseed =>
    have hp : (hashArgs xaddr xlen xseed s).p0 = (hashArgs xaddr xlen xseed t).p0 := congrFun hs xaddr
    have hn : (hashArgs xaddr xlen xseed s).len = (hashArgs xaddr xlen xseed t).len := congrFun hs xlen
    simp only [verdict, hashCheck, hp, hn, hc]
  | _ => simp only [verdict, hs, hc]

/-- Settles O22: these four draw no free value and leave the pipeline alone, since they read no memory. -/
theorem computeCommandFrame : Obligations.ComputeCommandFrame := by
  intro s t i hi h
  obtain ⟨hframe, ⟨hfault, hpipe, hfree⟩ | ⟨hdone, rfl⟩⟩ := exec_next h
  · exact ⟨hframe, hpipe, hfree, .inr hfault⟩
  · cases i with
    | nop | mum | mix | xor =>
      refine ⟨hframe, ?_, ?_, .inl hdone⟩ <;> rw [completion_of_no_read rfl rfl] <;> rfl
    | rd8 | rd4 | rd3 | hash => simp [Instr.opcode] at hi

/-- Settles O23. -/
theorem readerCommandFrame : Obligations.ReaderCommandFrame := by
  intro s t i hi h
  obtain ⟨hframe, ⟨hfault, hpipe, -⟩ | ⟨hdone, rfl⟩⟩ := exec_next h
  · exact ⟨hframe, hpipe, .inr hfault⟩
  · cases i with
    | rd8 | rd4 | rd3 => exact ⟨hframe, rfl, .inl hdone⟩
    | nop | mum | mix | xor | hash => simp [Instr.opcode] at hi

/-- Settles O24. -/
theorem hashCommandFrame : Obligations.HashCommandFrame := by
  intro s t xd xaddr xlen xseed h
  obtain ⟨hframe, ⟨hfault, hpipe, -⟩ | ⟨hdone, -⟩⟩ := exec_next h
  · exact ⟨hframe, .inr ⟨hfault, hpipe⟩⟩
  · exact ⟨hframe, .inl hdone⟩

/-- Settles O27: a commit faults exactly as its verdict says, and the verdict reads nothing else. -/
theorem verdictIgnoresMemory : Obligations.VerdictIgnoresMemory := by
  intro s t s' t' hcur hx hw ha hs ht c a
  have hv : commitVerdict s = commitVerdict t := by
    simp only [commitVerdict, hcur, verdict_congr hx (checkAccess_congr hw ha)]
  rw [faulted_iff_commitVerdict hs, faulted_iff_commitVerdict ht, hv]

/-! ### The accepted command runs -/

theorem decode_of_decodeTableWord {nbits w : Nat} {i : Instr} (h : decodeTableWord nbits w = some i) :
    decode (BitVec.ofNat 64 (w % 2 ^ nbits)) = .ok i := by
  unfold decodeTableWord tableValue at h
  split at h
  · cases h
  · rename_i v hv
    split at hv
    · cases hv
      split at h
      · cases h
        assumption
      · cases h
    · cases hv

/-- Settles O6. -/
theorem stepRunsDecodedCommand : Obligations.StepRunsDecodedCommand := by
  intro s i hb hd _
  refine ⟨fun rest hs => ?_, fun hs => ?_, fun rest hs => ?_⟩
  · rw [step_engine hs hb, commit_of_decode (s := { s with schedule := rest }) hd]
  · rw [step_empty hs hb, commit_of_decode hd]
  · rw [step_poll hs hb, commit_of_decode hd]

/-- Settles O7: the placed word is CUR, BUSY is set, and the engine has the next turn. -/
theorem placedWordRunsNext : Obligations.PlacedWordRunsNext := by
  intro s nbits w i h
  have hd := decode_of_decodeTableWord h
  rw [State.withFetchWord, step_engine (placeCommand_schedule _ s) rfl]
  exact commit_of_decode hd

/-- Every commit answers a next state, in which no command runs (10_state.md R29). -/
theorem commit_ends_busy (s : State) : ∃ t, commit s = .next t ∧ t.status.busy = false := by
  rcases commit_next s with ⟨c, a, -, h⟩ | ⟨ws, p, k, -, h⟩
  · exact ⟨_, h, rfl⟩
  · exact ⟨_, h, rfl⟩

/-- Settles O50. -/
theorem commitAlwaysEnabled : Obligations.CommitAlwaysEnabled := by
  rintro s rest hb (hs | hs | hs)
  · rw [step_empty hs hb]
    exact commit_ends_busy s
  · rw [step_engine hs hb]
    exact commit_ends_busy _
  · rw [step_poll hs hb]
    exact commit_ends_busy s

/-! ### Window accesses at an offset of the map -/

theorem step_read_at {s : State} {rest : List Turn} {off : Nat} (hc : s.config.wellFormed = true)
    (hle : off ≤ 0xF8) (h8 : off % 8 = 0)
    (hs : s.schedule = .host (.read (windowAddr s.config off) 8) :: rest) :
    step s = .next (observe (.reg (readReg s (windowReg off))) { s with schedule := rest }) :=
  step_read hs (accessOffset_windowAddr hc hle h8)

theorem step_write_at {s : State} {rest : List Turn} {off : Nat} {v : Word} (hc : s.config.wellFormed = true)
    (hle : off ≤ 0xF8) (h8 : off % 8 = 0)
    (hs : s.schedule = .host (.write (windowAddr s.config off) 8 v) :: rest) :
    step s = .next (writeReg { s with schedule := rest } v (windowReg off)) :=
  step_write hs (accessOffset_windowAddr hc hle h8)

theorem writeX_idle {s : State} (h : s.status.busy = false) (i : Reg) (v : Word) :
    writeX i v s = { s with x := s.x.set i v } := if_neg (by simp [h])

theorem writeX_busy {s : State} (h : s.status.busy = true) (i : Reg) (v : Word) :
    writeX i v s = { s with status := statusOverrun s.status } := if_pos h

theorem writeSecret_idle {s : State} (h : s.status.busy = false) (j : SecretIdx) (v : Word) :
    writeSecret j v s = { s with secret := s.secret.set j v } := if_neg (by simp [h])

theorem writeSecret_busy {s : State} (h : s.status.busy = true) (j : SecretIdx) (v : Word) :
    writeSecret j v s = { s with status := statusOverrun s.status } := if_pos h

theorem writeCmd_accepted {s : State} (h : s.status.busy = false ∧ s.status.err = false) (v : Word) :
    writeCmd v s = acceptCommand v s := if_pos h

theorem writeCmd_ignored {s : State} (h : s.status.busy = true ∨ s.status.err = true) (v : Word) :
    writeCmd v s = { s with status := statusOverrun s.status } :=
  if_neg fun ⟨hb, he⟩ => by simp [hb, he] at h

/-- A CTRL write with neither CLR nor SRST. -/
theorem writeCtrl_ignored {v : Word} (h0 : v.getLsbD 0 = false) (h1 : v.getLsbD 1 = false) (s : State) :
    writeCtrl v s = s := by
  rw [writeCtrl, h0, h1]
  rfl

/-- The offsets that read as 0 are CTRL, CMD and the reserved ones. -/
theorem windowReg_of_reads_zero : ∀ off ∈ [0x00, 0x10, 0x28, 0x30, 0x38, 0x60, 0x68, 0x70, 0x78],
    (off ≤ 0xF8 ∧ off % 8 = 0) ∧ (windowReg off = .ctrl ∨ windowReg off = .cmd ∨ windowReg off = .reserved) := by
  decide

/-- The offsets whose writes are ignored are those of the read-only registers and the reserved ones. -/
theorem windowReg_of_read_only : ∀ off ∈ [0x08, 0x18, 0x20, 0x28, 0x30, 0x38, 0x60, 0x68, 0x70, 0x78],
    (off ≤ 0xF8 ∧ off % 8 = 0) ∧ (windowReg off = .status ∨ windowReg off = .faultAddr ∨
      windowReg off = .faultCmd ∨ windowReg off = .reserved) := by
  decide

/-- Settles O39. -/
theorem cmdWriteRule : Obligations.CmdWriteRule := by
  intro s rest v hc hs
  rw [step_write_at hc (by decide) (by decide) hs, windowReg_cmd]
  refine ⟨fun h => ?_, fun h => ?_⟩
  · exact congrArg _ (writeCmd_accepted (s := { s with schedule := rest }) h v)
  · exact congrArg _ (writeCmd_ignored (s := { s with schedule := rest }) h v)

/-- Settles O40. -/
theorem registerWriteRule : Obligations.RegisterWriteRule := by
  intro s rest v hc
  refine ⟨fun i hs => ?_, fun j hs => ?_⟩
  · rw [step_write_at hc (by omega) (by omega) hs, windowReg_x]
    exact ⟨fun h => congrArg _ (writeX_idle (s := { s with schedule := rest }) h i v),
      fun h => congrArg _ (writeX_busy (s := { s with schedule := rest }) h i v)⟩
  · rw [step_write_at hc (by omega) (by omega) hs, windowReg_secret]
    exact ⟨fun h => congrArg _ (writeSecret_idle (s := { s with schedule := rest }) h j v),
      fun h => congrArg _ (writeSecret_busy (s := { s with schedule := rest }) h j v)⟩

/-- Settles O41. -/
theorem registerReadsReturnCurrentValue : Obligations.RegisterReadsReturnCurrentValue := by
  intro s rest hc
  refine ⟨fun i hs => ?_, fun j hs => ?_, fun hs => ?_⟩
  · rw [step_read_at hc (by omega) (by omega) hs, windowReg_x]
    rfl
  · rw [step_read_at hc (by omega) (by omega) hs, windowReg_secret]
    rfl
  · rw [step_read_at hc (by decide) (by decide) hs]
    rfl

/-- Settles O42. -/
theorem otherOffsetsReadAsMapped : Obligations.OtherOffsetsReadAsMapped := by
  intro s rest off hc hs
  refine ⟨fun hoff => ?_, ?_, ?_⟩
  · obtain ⟨⟨hle, h8⟩, hreg⟩ := windowReg_of_reads_zero off hoff
    have hzero : readReg s (windowReg off) = 0 := by
      rcases hreg with h | h | h <;> rw [h] <;> rfl
    rw [step_read_at hc hle h8 hs, hzero]
    rfl
  · rintro rfl
    rw [step_read_at hc (by decide) (by decide) hs]
    rfl
  · rintro rfl
    rw [step_read_at hc (by decide) (by decide) hs]
    rfl

/-- Settles O43. -/
theorem ignoredWritesChangeNothing : Obligations.IgnoredWritesChangeNothing := by
  rintro s rest off v hc (hoff | ⟨rfl, h0, h1⟩) hs
  · obtain ⟨⟨hle, h8⟩, hreg⟩ := windowReg_of_read_only off hoff
    rw [step_write_at hc hle h8 hs]
    rcases hreg with h | h | h | h <;> rw [h] <;> rfl
  · rw [step_write_at hc (by decide) (by decide) hs]
    exact congrArg _ (writeCtrl_ignored h0 h1 _)

/-- The four flags of STATUS stand in its low bits. -/
theorem statusWord_flags (t : Status) :
    (statusWord t).getLsbD 0 = t.busy ∧ (statusWord t).getLsbD 1 = t.done ∧
      (statusWord t).getLsbD 2 = t.err ∧ (statusWord t).getLsbD 3 = t.ovr := by
  simp only [statusWord, BitVec.getLsbD_append]
  simp

/-- CAUSE stands in bits 11:8 of STATUS. -/
theorem statusWord_cause (t : Status) : (statusWord t).extractLsb' 8 4 = causeCode t.cause := by
  ext i hi
  simp only [statusWord, BitVec.getElem_extractLsb', BitVec.getLsbD_append]
  simp [hi]

/-- The bits of STATUS above its flags and above CAUSE are 0. -/
theorem statusWord_reserved (t : Status) :
    (statusWord t).extractLsb' 4 4 = 0 ∧ (statusWord t).extractLsb' 12 52 = 0 := by
  constructor <;> ext i hi <;> simp only [statusWord, BitVec.getElem_extractLsb', BitVec.getLsbD_append]
  · simp [hi]
  · simpa using fun _ h => absurd h (by omega)

/-- Settles O44: the flags, CAUSE with the codes of R91, and the reserved bits. -/
theorem statusWordLayout : Obligations.StatusWordLayout := by
  intro t
  obtain ⟨hbusy, hdone, herr, hovr⟩ := statusWord_flags t
  refine ⟨hbusy, hdone, herr, hovr, ?_, statusWord_reserved t⟩
  rw [statusWord_cause]
  rcases t.cause with _ | _ | _ | _ | _ <;> rfl

/-! ### Window accesses while a command runs -/

/-- While a command runs, an access of the window that is no soft reset only reads, clears the status bits and the
fault record, sets OVR or does nothing (10_state.md R31, R32; 60_exceptions.md R95). -/
theorem step_window_busy {s : State} {op : HostOp} {rest : List Turn} (hb : s.status.busy = true)
    (hw : WindowAccess s.config op) (hs : s.schedule = .host op :: rest) :
    (∃ o, step s = .next (observe o { s with schedule := rest })) ∨
      step s = .next { s with schedule := rest } ∨
      step s = .next (clearFault { s with schedule := rest }) ∨
      step s = .next { s with schedule := rest, status := statusOverrun s.status } := by
  cases op with
  | read addr width =>
    obtain ⟨off, ho⟩ := Option.isSome_iff_exists.mp hw
    exact .inl ⟨_, step_read hs ho⟩
  | write addr width v =>
    obtain ⟨off, ho, hsrst⟩ := hw
    have hidle : ({ s with schedule := rest } : State).status.busy ≠ false := by simp [hb]
    rw [step_write hs ho]
    rcases writeReg_cases { s with schedule := rest } v (windowReg off) with h | ⟨hc, hv, -⟩ | ⟨-, -, -, h⟩ |
      ⟨hb', -⟩ | ⟨-, h⟩ | ⟨hb', -⟩ | ⟨hb', -⟩
    · exact .inr (.inl (congrArg _ h))
    · cases hv.symm.trans (hsrst hc)
    · exact .inr (.inr (.inl (congrArg _ h)))
    · exact absurd hb' hidle
    · exact .inr (.inr (.inr (congrArg _ h)))
    · exact absurd hb' hidle
    · exact absurd hb' hidle
  | poll | memWrite | memRead | postWrite | drain => exact hw.elim

/-- Settles O49. -/
theorem runningCommandUndisturbed : Obligations.RunningCommandUndisturbed := by
  intro s t op rest hb hw hs h
  rcases step_window_busy hb hw hs with ⟨o, he⟩ | he | he | he <;> cases he.symm.trans h <;>
    exact ⟨rfl, rfl, rfl, rfl, rfl, rfl, rfl, hb⟩

/-- `s` after window accesses that only took their turns, were observed, or touched OVR. -/
def waited (sch : List Turn) (obs : List Observation) (ovr : Bool) (s : State) : State :=
  { s with schedule := sch, observed := obs, status := { s.status with ovr := ovr } }

theorem lifeCycleInv_waited {s : State} (h : LifeCycleInv s) (sch : List Turn) (obs : List Observation) (ovr : Bool) :
    LifeCycleInv (waited sch obs ovr s) := { h with }

/-- While a command runs the life cycle holds no fault to clear, so CLR touches OVR alone. -/
theorem clearFault_busy {s : State} (h : LifeCycleInv s) (hb : s.status.busy = true) :
    clearFault s = waited s.schedule s.observed false s := by
  obtain ⟨hdone, herr⟩ := h.busy_alone hb
  have hcause : s.status.cause = none := by
    rw [← Option.isNone_iff_eq_none, ← Option.not_isSome, ← h.err_cause, herr]
    rfl
  obtain ⟨haddr, hcmd⟩ := h.no_fault hcause
  simp only [clearFault, waited, statusClear, hdone, herr, hcause, haddr, hcmd]

theorem step_window_waits {s : State} {op : HostOp} {rest : List Turn} (h : LifeCycleInv s)
    (hb : s.status.busy = true) (hw : WindowAccess s.config op) (hs : s.schedule = .host op :: rest) :
    ∃ obs ovr, step s = .next (waited rest obs ovr s) := by
  rcases step_window_busy hb hw hs with ⟨o, he⟩ | he | he | he
  · exact ⟨o :: s.observed, s.status.ovr, he⟩
  · exact ⟨s.observed, s.status.ovr, he⟩
  · have hclear := clearFault_busy (lifeCycleInv_waited h rest s.observed s.status.ovr) hb
    exact ⟨s.observed, false, he.trans (congrArg _ hclear)⟩
  · exact ⟨s.observed, true, he⟩

theorem completion_waited (i : Instr) (sch : List Turn) (obs : List Observation) (ovr : Bool) (s : State) :
    completion i (waited sch obs ovr s) = waited sch obs ovr (completion i s) := by
  cases i <;> rfl

/-- Waiting changes nothing in a commit but what it changed before it. -/
theorem commit_waited {s u : State} (h : commit s = .next u) (sch : List Turn) (obs : List Observation) (ovr : Bool) :
    commit (waited sch obs ovr s) = .next (waited sch obs ovr u) := by
  rcases commit_cases s with ⟨r, hd, he⟩ | ⟨i, hd, he⟩
  · cases he.symm.trans h
    simp only [commit, show decode (waited sch obs ovr s).cur = _ from hd]
    rfl
  · have hv : verdict (waited sch obs ovr s) i = verdict s i := verdict_congr rfl rfl i
    rw [commit_of_decode (s := waited sch obs ovr s) hd]
    rcases exec_verdict i s with ⟨c, a, hvs, hes⟩ | ⟨hvs, hes⟩ <;> cases hes.symm.trans (he.symm.trans h)
    · exact exec_of_fault (hv.trans hvs)
    · rw [exec_of_none (hv.trans hvs), completion_waited]

/-- A run of window accesses and then the engine's turn is the commit of a state that has waited. -/
theorem run_windows_then_commit {ops : List HostOp} {s : State} (h : LifeCycleInv s) (hb : s.status.busy = true)
    (hw : ∀ op ∈ ops, WindowAccess s.config op) (hs : s.schedule = ops.map Turn.host ++ [.engine]) :
    ∃ obs ovr, Sys2Proof.core.run (ops.length + 1) s = commit (waited [] obs ovr s) := by
  induction ops generalizing s with
  | nil =>
    have hstep : step s = commit (waited [] s.observed s.status.ovr s) := step_engine hs hb
    obtain ⟨t, ht, -⟩ := commit_ends_busy (waited [] s.observed s.status.ovr s)
    exact ⟨_, _, (run_next (hstep.trans ht) 0).trans ht.symm⟩
  | cons op ops ih =>
    obtain ⟨obs, ovr, he⟩ := step_window_waits h hb (hw op List.mem_cons_self) hs
    obtain ⟨obs', ovr', hrun⟩ := ih (s := waited _ obs ovr s) (lifeCycleInv_waited h _ obs ovr) hb
      (fun op' hop => hw op' (List.mem_cons_of_mem _ hop)) rfl
    exact ⟨obs', ovr', (run_next he _).trans hrun⟩

/-- Settles O51: the accesses before the commit change turns, observations and OVR only, and the commit passes those
through. -/
theorem resultIndependentOfCommitTime : Obligations.ResultIndependentOfCommitTime := by
  intro s u ops hi hb hw hs hu
  obtain ⟨obs, ovr, hrun⟩ := run_windows_then_commit hi.cycle hb hw hs
  exact ⟨_, hrun.trans (commit_waited hu [] obs ovr), rfl, rfl, rfl, rfl, rfl, rfl, rfl, rfl⟩

/-! ### The fault record -/

/-- Settles O55: of all a step can do, only a commit's fault, CLR and the resets write the record. -/
theorem faultRecordChangesOnlyAtFaultCommit : Obligations.FaultRecordChangesOnlyAtFaultCommit := by
  intro s t h hne
  by_cases hkept : t.faultAddr = s.faultAddr ∧ t.faultCmd = s.faultCmd
  · exact absurd hne (by simp [hkept])
  obtain ⟨sch, turned⟩ := step_cases h
  cases turned with
  | commit hb hc =>
    rcases commit_next { s with schedule := sch } with ⟨c, a, -, he⟩ | ⟨ws, p, k, -, he⟩ <;> cases he.symm.trans hc
    · exact .inl ⟨hb, rfl, rfl, rfl⟩
    · exact absurd ⟨rfl, rfl⟩ hkept
  | window addr width off v rest turn ho =>
    rcases writeReg_cases { s with schedule := sch } v (windowReg off) with he | ⟨-, -, he⟩ | ⟨-, -, -, he⟩ |
      ⟨-, -, he⟩ | ⟨-, he⟩ | ⟨-, i, he⟩ | ⟨-, j, he⟩ <;> rw [he] at hkept ⊢
    case inr.inl => exact .inr ⟨rfl, rfl, rfl, rfl⟩
    case inr.inr.inl => exact .inr ⟨rfl, rfl, rfl, rfl⟩
    all_goals exact absurd ⟨rfl, rfl⟩ hkept
  | look | write | post => exact absurd ⟨rfl, rfl⟩ hkept
  | drain k =>
    rcases drainWrite_cases k { s with schedule := sch } with he | ⟨w, -, he⟩ <;> rw [he] at hkept <;>
      exact absurd ⟨rfl, rfl⟩ hkept
  | reset => exact .inr ⟨rfl, rfl, rfl, rfl⟩

/-! ### Every step keeps the invariant

One lemma per thing a step can do (`Turned`); a step is one of them on a state whose turn has been taken. -/

theorem Inv.withSchedule {s : State} (h : Inv s) (sch : List Turn) : Inv { s with schedule := sch } :=
  ⟨h.platform, { h.memory with }, { h.cycle with }, h.pointer⟩

theorem Inv.addrW_le {s : State} (h : Inv s) : s.config.addrW ≤ 64 := by
  have := h.platform
  simp only [Config.wellFormed, Bool.and_eq_true, decide_eq_true_eq] at this
  exact this.1.2

/-- A state with no fault recorded, no command running and no race remembered. -/
theorem lifeCycleInv_of_idle {s : State} (hb : s.status.busy = false) (he : s.status.err = false)
    (hc : s.status.cause = none) (ha : s.faultAddr = 0) (hf : s.faultCmd = 0) (hr : s.busyWrites = []) :
    LifeCycleInv s where
  busy_alone h := by simp [hb] at h
  done_alone _ := he
  err_cause := by rw [he, hc]; rfl
  no_fault _ := ⟨ha, hf⟩
  no_address _ := ha
  bus_address h := by simp [hc] at h
  snapshot h := by simp [hb] at h
  no_race _ := hr

/-- A completing commit keeps the invariant: no fault stood while the command ran. -/
theorem Inv.commitOk {s : State} (h : Inv s) (hb : s.status.busy = true) (ws : List (Reg × Word)) (k : Nat)
    {p : Pipeline} (hp : p = s.pipe ∨ p.ptr < 2 ^ s.config.addrW) :
    Inv (commitOk ws (drawn k { s with pipe := p })) := by
  obtain ⟨-, herr⟩ := h.cycle.busy_alone hb
  have hptr : p.ptr < 2 ^ s.config.addrW := by
    rcases hp with rfl | hp
    · exact h.pointer
    · exact hp
  refine ⟨h.platform, { h.memory with }, ?_, hptr⟩
  exact { h.cycle with
    busy_alone := nofun
    done_alone := fun _ => herr
    snapshot := nofun
    no_race := fun _ => rfl }

/-- A fault commit keeps the invariant: its record is what R91 gives for its cause. -/
theorem Inv.recordFault {s : State} (h : Inv s) {c : Cause} {a : Word}
    (hr : c = .illegal ∧ a = 0 ∨ RaisedBy s c a) : Inv (recordFault c a s) := by
  refine ⟨h.platform, { h.memory with }, ?_, h.pointer⟩
  refine ⟨nofun, nofun, rfl, nofun, fun hc => ?_, fun hc => ?_, nofun, fun _ => rfl⟩
  · rcases hr with ⟨-, ha⟩ | hr
    · exact ha
    · cases hr with
      | operand => rfl
      | range | bus => simp at hc
  · rcases hr with ⟨rfl, -⟩ | hr
    · cases hc
    · cases hr with
      | operand | range => cases hc
      | bus g hg ha =>
        have hg64 : g < 2 ^ 64 := hg.trans_le (Nat.pow_le_pow_right (by decide) h.addrW_le)
        show admits s.config (BitVec.ofNat 64 g).toNat = false
        rw [BitVec.toNat_ofNat, Nat.mod_eq_of_lt hg64, ha]

theorem Inv.commit {s t : State} (h : Inv s) (hb : s.status.busy = true) (hc : commit s = .next t) : Inv t := by
  rcases commit_next s with ⟨c, a, hr, he⟩ | ⟨ws, p, k, hp, he⟩ <;> cases he.symm.trans hc
  · exact h.recordFault hr
  · exact h.commitOk hb ws k hp

theorem Inv.resetEngine {s : State} (h : Inv s) : Inv (resetEngine s) :=
  ⟨h.platform, { h.memory with }, lifeCycleInv_of_idle rfl rfl rfl rfl rfl rfl, Nat.two_pow_pos _⟩

theorem Inv.clearFault {s : State} (h : Inv s) : Inv (clearFault s) :=
  ⟨h.platform, { h.memory with },
    { h.cycle with
      busy_alone := fun _ => ⟨rfl, rfl⟩
      done_alone := fun _ => rfl
      err_cause := rfl
      no_fault := fun _ => ⟨rfl, rfl⟩
      no_address := fun _ => rfl
      bus_address := nofun }, h.pointer⟩

theorem Inv.acceptCommand {s : State} (h : Inv s) (herr : s.status.err = false) (v : Word) :
    Inv (acceptCommand v s) :=
  ⟨h.platform, { h.memory with },
    { h.cycle with
      busy_alone := fun _ => ⟨rfl, herr⟩
      done_alone := nofun
      snapshot := fun _ => ⟨rfl, rfl⟩
      no_race := fun _ => rfl }, h.pointer⟩

/-- Registers may change while no command runs: the snapshot is then free. -/
theorem Inv.withRegisters {s : State} (h : Inv s) (hb : s.status.busy = false) (x : Vector Word 16)
    (secret : Vector Word 4) : Inv { s with x := x, secret := secret } :=
  ⟨h.platform, { h.memory with }, { h.cycle with snapshot := fun hb' => by simp [hb] at hb' }, h.pointer⟩

theorem Inv.writeReg {s : State} (h : Inv s) (v : Word) (r : WinReg) : Inv (writeReg s v r) := by
  rcases writeReg_cases s v r with he | ⟨-, -, he⟩ | ⟨-, -, -, he⟩ | ⟨-, herr, he⟩ | ⟨-, he⟩ | ⟨hb, i, he⟩ |
    ⟨hb, j, he⟩ <;> rw [he]
  · exact h
  · exact h.resetEngine
  · exact h.clearFault
  · exact h.acceptCommand herr v
  · exact ⟨h.platform, { h.memory with }, { h.cycle with }, h.pointer⟩
  · exact h.withRegisters hb _ s.secret
  · exact h.withRegisters hb s.x _

theorem Inv.look {s : State} (h : Inv s) (o : Observation) (k : Nat) : Inv (drawn k (observe o s)) :=
  ⟨h.platform, { h.memory with }, { h.cycle with }, h.pointer⟩

theorem Inv.hostWrite {s : State} (h : Inv s) {addr : Nat} {bytes : List Byte}
    (hin : addr + bytes.length ≤ 2 ^ s.config.addrW) : Inv (hostWrite addr bytes s) :=
  ⟨h.platform,
    { canonical := wf_putBytes h.memory.canonical addr bytes
      inside := mem_putBytes_lt h.memory.inside hin
      posted := h.memory.posted },
    { h.cycle with
      no_race := fun hb => by
        rw [hostWrite_busyWrites, if_neg (by simpa using hb)]
        exact h.cycle.no_race hb }, h.pointer⟩

/-- The host platform's buffers may hold any writes that stay inside memory. -/
theorem Inv.withUndrained {s : State} (h : Inv s) {ws : List PostedWrite}
    (hin : ∀ w ∈ ws, w.addr + w.bytes.length ≤ 2 ^ s.config.addrW) : Inv { s with undrained := ws } :=
  ⟨h.platform, { h.memory with posted := hin }, { h.cycle with }, h.pointer⟩

theorem Inv.drainWrite {s : State} (h : Inv s) (k : Nat) : Inv (drainWrite k s) := by
  rcases drainWrite_cases k s with he | ⟨w, hw, he⟩ <;> rw [he]
  · exact h
  · exact (h.withUndrained fun w' hw' => h.memory.posted w' (List.mem_of_mem_eraseIdx hw')).hostWrite
      (h.memory.posted w hw)

/-- Settles O57. -/
theorem everyStepKeepsTheInvariant : Obligations.EveryStepKeepsTheInvariant := by
  intro s t hi hstep
  obtain ⟨sch, turned⟩ := step_cases hstep
  have h := hi.withSchedule sch
  cases turned with
  | commit hb hc => exact h.commit hb hc
  | window addr width off v rest _ _ => exact h.writeReg v (windowReg off)
  | look o k => exact h.look o k
  | write addr bytes hin => exact h.hostWrite hin
  | post addr bytes hin =>
    refine h.withUndrained fun w hw => ?_
    rcases List.mem_append.mp hw with hw | hw
    · exact hi.memory.posted w hw
    · rw [List.mem_singleton.mp hw]
      exact hin
  | drain k => exact h.drainWrite k
  | reset => exact h.resetEngine

/-! ### The hidden registers are unobservable

Two states that look the same go on looking the same through each thing a step can do. While a command runs they differ
in the pipeline's registers alone, and its commit reads none of them: the digest of a HASH does not
(`pipeline_digest`). -/

theorem sameToHost_withPipe (p : Pipeline) (s : State) : SameToHost s { s with pipe := p } :=
  ⟨rfl, rfl, rfl, rfl, rfl, rfl, rfl, rfl, rfl, rfl, rfl, fun _ => ⟨rfl, rfl, rfl, rfl⟩⟩

theorem SameToHost.eq_withPipe {s t : State} (h : SameToHost s t) (hb : s.status.busy = true) :
    t = { s with pipe := t.pipe } := by
  obtain ⟨hcur, hsx, hss, hbw⟩ := h.running hb
  obtain ⟨h1, h2, h3, h4, h5, h6, h7, h8, h9, h10, h11, -⟩ := h
  cases s
  cases t
  simp_all only

theorem completion_withPipe (i : Instr) (p : Pipeline) (s : State) :
    ∃ q, completion i { s with pipe := p } = { completion i s with pipe := q } := by
  cases i <;> exact ⟨_, rfl⟩

theorem commit_withPipe (p : Pipeline) (s : State) : SameOutcome (commit s) (commit { s with pipe := p }) := by
  rcases commit_cases s with ⟨r, hd, he⟩ | ⟨i, hd, he⟩
  · have hp : commit { s with pipe := p } = .next { recordFault .illegal 0 s with pipe := p } := by
      simp only [commit, hd]
      rfl
    rw [he, hp]
    exact sameToHost_withPipe p _
  · have hv : verdict { s with pipe := p } i = verdict s i := verdict_congr rfl rfl i
    rw [he, commit_of_decode (s := { s with pipe := p }) hd]
    rcases exec_verdict i s with ⟨c, a, hvs, hes⟩ | ⟨hvs, hes⟩
    · rw [hes, exec_of_fault (hv.trans hvs)]
      exact sameToHost_withPipe p (recordFault c a s)
    · obtain ⟨q, hq⟩ := completion_withPipe i p s
      rw [hes, exec_of_none (hv.trans hvs), hq]
      exact sameToHost_withPipe q (completion i s)

theorem SameToHost.commit {s t : State} (h : SameToHost s t) (hb : s.status.busy = true) :
    SameOutcome (commit s) (commit t) := by
  rw [h.eq_withPipe hb]
  exact commit_withPipe t.pipe s

section

variable {s t : State} (h : SameToHost s t)
include h

theorem SameToHost.busy_eq : s.status.busy = t.status.busy := congrArg Status.busy h.status

theorem SameToHost.accessOffset_eq : accessOffset s.config = accessOffset t.config := congrArg _ h.config

theorem SameToHost.insideMemory_eq : insideMemory s.config = insideMemory t.config := congrArg _ h.config

theorem SameToHost.withSchedule (sch : List Turn) : SameToHost { s with schedule := sch } { t with schedule := sch } :=
  { h with schedule := rfl }

theorem SameToHost.observe {o o' : Observation} (ho : o = o') : SameToHost (observe o s) (observe o' t) :=
  { h with observed := by rw [observe_observed, observe_observed, ho, h.observed] }

theorem SameToHost.drawn (k : Nat) : SameToHost (drawn k s) (drawn k t) :=
  { h with freeIdx := congrArg (· + k) h.freeIdx }

theorem SameToHost.overrun :
    SameToHost { s with status := statusOverrun s.status } { t with status := statusOverrun t.status } :=
  { h with status := congrArg statusOverrun h.status }

theorem SameToHost.clearFault : SameToHost (clearFault s) (clearFault t) :=
  { h with status := congrArg statusClear h.status, faultAddr := rfl, faultCmd := rfl }

theorem SameToHost.acceptCommand (v : Word) : SameToHost (acceptCommand v s) (acceptCommand v t) :=
  { h with status := congrArg statusAccept h.status, running := fun _ => ⟨rfl, h.x, h.secret, rfl⟩ }

theorem SameToHost.resetEngine : SameToHost (resetEngine s) (resetEngine t) :=
  { h with
    x := rfl, secret := congrArg Config.defaultSecret h.config, status := rfl, faultAddr := rfl, faultCmd := rfl
    running := nofun }

theorem SameToHost.readReg (r : WinReg) : readReg s r = readReg t r := by
  cases r with
  | ctrl | cmd | reserved => rfl
  | status => exact congrArg statusWord h.status
  | faultAddr => exact h.faultAddr
  | faultCmd => exact h.faultCmd
  | secret j => exact congrArg (·[j]) h.secret
  | x i => exact congrArg (·[i]) h.x

theorem SameToHost.writeX (i : Reg) (v : Word) : SameToHost (writeX i v s) (writeX i v t) := by
  cases hb : s.status.busy with
  | true =>
    rw [writeX_busy hb, writeX_busy (h.busy_eq ▸ hb)]
    exact h.overrun
  | false =>
    rw [writeX_idle hb, writeX_idle (h.busy_eq ▸ hb)]
    exact { h with x := congrArg (·.set i v) h.x }

theorem SameToHost.writeSecret (j : SecretIdx) (v : Word) : SameToHost (writeSecret j v s) (writeSecret j v t) := by
  cases hb : s.status.busy with
  | true =>
    rw [writeSecret_busy hb, writeSecret_busy (h.busy_eq ▸ hb)]
    exact h.overrun
  | false =>
    rw [writeSecret_idle hb, writeSecret_idle (h.busy_eq ▸ hb)]
    exact { h with secret := congrArg (·.set j v) h.secret }

theorem SameToHost.writeCmd (v : Word) : SameToHost (writeCmd v s) (writeCmd v t) := by
  simp only [Machine.writeCmd, ← h.busy_eq, ← congrArg Status.err h.status]
  split
  · exact h.acceptCommand v
  · exact h.overrun

theorem SameToHost.writeCtrl (v : Word) : SameToHost (writeCtrl v s) (writeCtrl v t) := by
  unfold Machine.writeCtrl
  split
  · exact h.resetEngine
  · split
    · exact h.clearFault
    · exact h

theorem SameToHost.writeReg (v : Word) (r : WinReg) : SameToHost (writeReg s v r) (writeReg t v r) := by
  cases r with
  | ctrl => exact h.writeCtrl v
  | cmd => exact h.writeCmd v
  | secret j => exact h.writeSecret j v
  | x i => exact h.writeX i v
  | status | faultAddr | faultCmd | reserved => exact h

theorem SameToHost.hostWrite (addr : Nat) (bytes : List Byte) :
    SameToHost (hostWrite addr bytes s) (hostWrite addr bytes t) :=
  { h with
    mem := congrArg (Memory.putBytes · addr bytes) h.mem
    running := fun hb => by
      obtain ⟨hcur, hsx, hss, hbw⟩ := h.running hb
      refine ⟨hcur, hsx, hss, ?_⟩
      rw [hostWrite_busyWrites, hostWrite_busyWrites, h.status, hbw] }

theorem SameToHost.withUndrained (ws : List PostedWrite) :
    SameToHost { s with undrained := ws } { t with undrained := ws } := { h with undrained := rfl }

theorem SameToHost.drainWrite (k : Nat) : SameToHost (drainWrite k s) (drainWrite k t) := by
  unfold Machine.drainWrite
  rw [← h.undrained]
  split
  · exact h
  · exact (h.withUndrained _).hostWrite _ _

theorem SameToHost.hostRead (addr n : Nat) : SameToHost (hostRead addr n s) (hostRead addr n t) := by
  unfold Machine.hostRead
  rw [← h.undrained, ← h.freeIdx, ← h.mem]
  split
  · exact (h.observe rfl).drawn n
  · exact h.observe rfl

theorem SameToHost.hostStep (op : HostOp) (rest : List Turn) :
    SameOutcome (hostStep op rest s) (hostStep op rest t) := by
  have hrest := h.withSchedule rest
  cases op with
  | read addr width =>
    simp only [Machine.hostStep, ← h.accessOffset_eq]
    split
    · rfl
    · exact hrest.observe (congrArg Observation.reg (h.readReg _))
  | write addr width v =>
    simp only [Machine.hostStep, ← h.accessOffset_eq]
    split
    · rfl
    · exact hrest.writeReg v _
  | poll =>
    simp only [Machine.hostStep, ← h.busy_eq]
    split
    · exact h.commit ‹_›
    · exact hrest.observe (congrArg (fun u => Observation.reg (statusWord u)) h.status)
  | memWrite addr bytes =>
    simp only [Machine.hostStep, ← h.insideMemory_eq]
    split
    · exact hrest.hostWrite addr bytes
    · rfl
  | memRead addr n =>
    simp only [Machine.hostStep, ← h.insideMemory_eq]
    split
    · exact hrest.hostRead addr n
    · rfl
  | postWrite addr bytes =>
    simp only [Machine.hostStep, ← h.insideMemory_eq, ← h.undrained]
    split
    · exact hrest.withUndrained _
    · rfl
  | drain k => exact hrest.drainWrite k

theorem SameToHost.takeTurn (turn : Turn) (rest : List Turn) :
    SameOutcome (takeTurn turn rest s) (takeTurn turn rest t) := by
  cases turn with
  | host op => exact h.hostStep op rest
  | engine =>
    simp only [Machine.takeTurn, engineStep, ← h.busy_eq]
    split
    · exact (h.withSchedule rest).commit ‹_›
    · rfl
  | reset => exact (h.withSchedule rest).resetEngine

theorem SameToHost.noTurn : SameOutcome (noTurn s) (noTurn t) := by
  simp only [Machine.noTurn, ← h.busy_eq]
  split
  · exact h.commit ‹_›
  · rfl

end

/-- Settles O60: whatever turn is next, it is the same one in both states. -/
theorem hiddenStateIsUnobservable : Obligations.HiddenStateIsUnobservable := by
  intro s t h
  unfold step
  rw [← h.schedule]
  split
  · exact h.noTurn
  · exact h.takeTurn _ _

end Sys2Proof.Machine

/-! ## Proofs: engine memory, the read port and the host's accesses (20_memory.md) -/

namespace Sys2Proof.Machine

/-! ### Runs of bytes read little-endian -/

theorem memRead_append (m : Memory) (a n k : Nat) :
    memRead m a (n + k) = memRead m a n ++ memRead m (a + n) k := by
  simp only [memRead, List.range_add, List.map_append, List.map_map, Function.comp_def, Nat.add_assoc]

@[simp] theorem length_memRead (m : Memory) (a n : Nat) : (memRead m a n).length = n := by simp [memRead]

theorem littleEndian_append (xs ys : List Byte) :
    littleEndian (xs ++ ys) = littleEndian xs + 2 ^ (8 * xs.length) * littleEndian ys := by
  induction xs with
  | nil => simp [littleEndian]
  | cons x xs ih =>
    rw [List.cons_append, littleEndian, ih, littleEndian, List.length_cons, Nat.mul_succ, Nat.pow_add]
    ring

theorem littleEndian_lt (xs : List Byte) : littleEndian xs < 2 ^ (8 * xs.length) := by
  induction xs with
  | nil => exact Nat.one_pos
  | cons x xs ih =>
    rw [littleEndian, List.length_cons, Nat.mul_succ, Nat.pow_add]
    have := x.isLt
    omega

/-- Settles O31: the 8 bytes are the 4 bytes and 4 more above them. -/
theorem rd4IsLowHalfOfRd8 : Obligations.Rd4IsLowHalfOfRd8 := by
  intro m p
  have hlow : littleEndian (memRead m p 4) < 2 ^ 32 := by simpa using littleEndian_lt (memRead m p 4)
  have hsplit : littleEndian (memRead m p 8) =
      littleEndian (memRead m p 4) + 2 ^ 32 * littleEndian (memRead m (p + 4) 4) := by
    rw [memRead_append m p 4 4, littleEndian_append, length_memRead]
  apply BitVec.eq_of_toNat_eq
  rw [BitVec.toNat_and, show (0xFFFFFFFF : Word).toNat = 2 ^ 32 - 1 from rfl, Nat.and_two_pow_sub_one_eq_mod, rd4, rd8,
    BitVec.toNat_ofNat, BitVec.toNat_ofNat, hsplit]
  omega

/-! ### The value read depends on the bytes of the run alone -/

/-- Two memories hold the same bytes at `[a, a + n)`. -/
def AgreeOn (m m' : Memory) (a n : Nat) : Prop :=
  ∀ b, a ≤ b → b < a + n → Memory.byteAt m b = Memory.byteAt m' b

theorem AgreeOn.mono {m m' : Memory} {a n b k : Nat} (h : AgreeOn m m' a n) (hlo : a ≤ b) (hhi : b + k ≤ a + n) :
    AgreeOn m m' b k := fun c hc hck => h c (by omega) (by omega)

theorem memRead_congr {m m' : Memory} {a n : Nat} (h : AgreeOn m m' a n) : memRead m a n = memRead m' a n :=
  List.map_congr_left fun i hi => h (a + i) (by omega) (by have := List.mem_range.mp hi; omega)

theorem rd8_congr {m m' : Memory} {p : Nat} (h : AgreeOn m m' p 8) : rd8 m p = rd8 m' p := by
  rw [rd8, rd8, memRead_congr h]

theorem rd4_congr {m m' : Memory} {p : Nat} (h : AgreeOn m m' p 4) : rd4 m p = rd4 m' p := by
  rw [rd4, rd4, memRead_congr h]

theorem rd3_congr {m m' : Memory} {p k : Nat} (hk : 0 < k) (h : AgreeOn m m' p k) : rd3 m p k = rd3 m' p k := by
  rw [rd3, rd3, h p (by omega) (by omega), h (p + k / 2) (by omega) (by omega), h (p + k - 1) (by omega) (by omega)]

theorem shortReads_congr {m m' : Memory} {p n : Nat} (hn : n ≤ 16) (h : AgreeOn m m' p n) :
    shortReads m p n = shortReads m' p n := by
  unfold shortReads
  split
  · have ho : shortOffset n + 4 ≤ n := by unfold shortOffset; omega
    simp only [rd4_congr (h.mono (b := p) (k := 4) (by omega) (by omega)),
      rd4_congr (h.mono (b := p + shortOffset n) (k := 4) (by omega) (by omega)),
      rd4_congr (h.mono (b := p + n - 4) (k := 4) (by omega) (by omega)),
      rd4_congr (h.mono (b := p + n - 4 - shortOffset n) (k := 4) (by omega) (by omega))]
  · split
    · rw [rd3_congr ‹_› h]
    · rfl

theorem absorb_congr {m m' : Memory} {p : Nat} (h : AgreeOn m m' p 16) (secret see : Word) :
    absorb m p secret see = absorb m' p secret see := by
  rw [absorb, absorb, rd8_congr (h.mono (by omega) (by omega)), rd8_congr (h.mono (by omega) (by omega))]

theorem bulkPass_congr {m m' : Memory} {S : Vector Word 4} {l : LoopVars} (h : AgreeOn m m' l.p 48) :
    bulkPass m S l = bulkPass m' S l := by
  rw [bulkPass, bulkPass, absorb_congr (h.mono (by omega) (by omega)), absorb_congr (h.mono (by omega) (by omega)),
    absorb_congr (h.mono (by omega) (by omega))]

/-- From a whole block left on, the 48-byte loop reads what is left of the key only, and what it leaves ends where the
key does. -/
theorem bulkLoop_congr {m m' : Memory} {S : Vector Word 4} (f : Nat) {l : LoopVars} (hi : 48 ≤ l.i)
    (h : AgreeOn m m' l.p l.i) :
    bulkLoop m S f l = bulkLoop m' S f l ∧ l.p ≤ (bulkLoop m S f l).p ∧
      (bulkLoop m S f l).p + (bulkLoop m S f l).i = l.p + l.i := by
  induction f generalizing l with
  | zero => exact ⟨rfl, Nat.le_refl _, rfl⟩
  | succ f ih =>
    have hpass : bulkPass m S l = bulkPass m' S l := bulkPass_congr (h.mono (Nat.le_refl _) (by omega))
    have hp : (bulkPass m S l).p = l.p + 48 := rfl
    have hl : (bulkPass m S l).i = l.i - 48 := rfl
    by_cases hmore : 48 ≤ l.i - 48
    · obtain ⟨heq, hlo, hend⟩ := ih (l := bulkPass m S l) hmore (h.mono (by omega) (by omega))
      rw [bulkLoop_more m S f hmore, bulkLoop_more m' S f hmore, ← hpass]
      exact ⟨heq, by omega, by omega⟩
    · rw [bulkLoop_last m S f (by omega), bulkLoop_last m' S f (by omega)]
      exact ⟨hpass, by omega, by omega⟩

/-- The 16-byte loop reads what is left of the key only, and what it leaves ends where the key does. -/
theorem tailLoop_congr {m m' : Memory} {S : Vector Word 4} (f : Nat) {l : LoopVars} (h : AgreeOn m m' l.p l.i) :
    tailLoop m S f l = tailLoop m' S f l ∧ (tailLoop m S f l).p + (tailLoop m S f l).i = l.p + l.i := by
  induction f generalizing l with
  | zero => exact ⟨rfl, rfl⟩
  | succ f ih =>
    by_cases hmore : 16 < l.i
    · rw [tailLoop_more m S f hmore, tailLoop_more m' S f hmore,
        ← absorb_congr (h.mono (Nat.le_refl _) (by omega)) S[1] l.see]
      obtain ⟨heq, hend⟩ := ih (l := { l with see := absorb m l.p S[1] l.see, p := l.p + 16, i := l.i - 16 })
        (h.mono (Nat.le_add_right _ _) (by simp only; omega))
      exact ⟨heq, by simp only at hend; omega⟩
    · rw [tailLoop_leave m S _ (by omega), tailLoop_leave m' S _ (by omega)]
      exact ⟨rfl, rfl⟩

theorem longLoops_congr {m m' : Memory} {S : Vector Word 4} {p n : Nat} {see : Word} (h : AgreeOn m m' p n) :
    longLoops m S p n see = longLoops m' S p n see ∧
      (longLoops m S p n see).p + (longLoops m S p n see).i = p + n := by
  by_cases hn : 48 ≤ n
  · obtain ⟨heq, hlo, hend⟩ := bulkLoop_congr (S := S) (n / 48) (l := ⟨see, see, see, p, n⟩) hn h
    rw [longLoops_bulk hn, longLoops_bulk hn, ← heq]
    obtain ⟨heq', hend'⟩ := tailLoop_congr (S := S) (n / 16)
      (l := foldVars (bulkLoop m S (n / 48) ⟨see, see, see, p, n⟩)) (h.mono hlo (Nat.le_of_eq hend))
    exact ⟨heq', hend'.trans hend⟩
  · rw [longLoops_tail (by omega), longLoops_tail (by omega)]
    exact tailLoop_congr (n / 16) h

/-- The digest reads the bytes of the key only (42_hash_pipeline.md R88). -/
theorem wyhash_congr {m m' : Memory} {k : HashArgs} (h : AgreeOn m m' k.p0.toNat k.len.toNat) :
    wyhash m k = wyhash m' k := by
  by_cases hn : k.len.toNat ≤ 16
  · rw [wyhash_short hn, wyhash_short hn, shortReads_congr hn h]
  · obtain ⟨heq, hend⟩ := longLoops_congr (S := k.S) (see := whiten k.seed k.S) h
    rw [wyhash_long (by omega), wyhash_long (by omega), ← heq, digestAfterLoops, digestAfterLoops,
      rd8_congr (h.mono (by omega) (by omega)), rd8_congr (h.mono (by omega) (by omega))]

/-! ### The access of a command that reads memory -/

theorem completion_x (i : Instr) (s : State) : (completion i s).x = writeRegs s.x (writesOf s i) := rfl

theorem completion_mem (i : Instr) (s : State) : (completion i s).mem = s.mem := rfl

theorem accesses_congr {s t : State} (h : s.snapX = t.snapX) : Accesses s = Accesses t := by
  funext i p n
  cases i <;> simp only [Accesses, h]

theorem readValue_congr_snap {s t : State} (hx : s.snapX = t.snapX) (hs : s.snapS = t.snapS) (m : Memory) (i : Instr) :
    readValue m s i = readValue m t i := by
  cases i <;> simp only [readValue, hx, hs]

section

variable {s : State} {i : Instr} {p : Word} {n : Nat} (h : Accesses s i p n)
include h

theorem readSpan_of_accesses : readSpan s i = ⟨p.toNat, n⟩ := by
  cases i with
  | nop | mum | mix | xor => exact h.elim
  | rd8 | rd4 => obtain ⟨rfl, rfl⟩ := h; rfl
  | rd3 | hash => obtain ⟨rfl, rfl, -⟩ := h; rfl

/-- A command that reads memory faults as the read port's check of its access says (20_memory.md R35). -/
theorem verdict_of_accesses : verdict s i = checkAccess s.config p n := by
  cases i with
  | nop | mum | mix | xor => exact h.elim
  | rd8 | rd4 => obtain ⟨rfl, rfl⟩ := h; rfl
  | rd3 xd xaddr xk =>
    obtain ⟨rfl, rfl, h1, h3⟩ := h
    exact if_neg (by simp only [source]; omega)
  | hash xd xaddr xlen xseed =>
    obtain ⟨rfl, rfl, h1⟩ := h
    have hne : (hashArgs xaddr xlen xseed s).len ≠ 0 := fun h0 => by
      rw [show s.snapX[xlen] = 0 from h0] at h1
      cases h1
    exact if_neg hne

theorem dests_read_loaded : ∀ r ∈ dests i, (completion i s).x[r] = loaded s i := by
  cases i with
  | nop | mum | mix | xor => exact h.elim
  | rd8 xd | rd4 xd | rd3 xd | hash xd =>
    intro r hr
    obtain rfl := List.mem_singleton.mp hr
    exact writeRegs_one s.x r _

theorem readRaced_of_accesses : readRaced s i = true ↔ ¬ Untouched s p.toNat n := by
  rw [readRaced, readSpan_of_accesses h, ← raced_eq_false_iff, Bool.not_eq_false]

theorem loaded_of_untouched (hu : Untouched s p.toNat n) : loaded s i = readValue s.mem s i := by
  rw [loaded, if_neg fun hr => (readRaced_of_accesses h).mp hr hu]

/-- A readable access completes. -/
theorem exec_of_readable (hr : Readable s.config p.toNat n) : exec i s = .next (completion i s) :=
  exec_of_none ((verdict_of_accesses h).trans ((checkAccess_none_iff _ _ _).mpr hr))

end

theorem checkAccess_range {c : Config} {p : Word} {n : Nat} (h : 2 ^ c.addrW < p.toNat + n) :
    checkAccess c p n = some (.range, p) := if_pos h

/-- Inside the space the check answers BUS at the lowest byte that is not admitted. -/
theorem checkAccess_bus {c : Config} {p : Word} {n b : Nat} (htop : p.toNat + n ≤ 2 ^ c.addrW) (hlo : p.toNat ≤ b)
    (hhi : b < p.toNat + n) (hb : admits c b = false) (hbelow : ∀ a, p.toNat ≤ a → a < b → admits c a = true) :
    checkAccess c p n = some (.bus, BitVec.ofNat 64 b) := by
  cases hc : checkAccess c p n with
  | none =>
    obtain ⟨-, ha⟩ := (checkAccess_none_iff c p n).mp hc
    exact absurd (ha b hlo hhi) (by simp [hb])
  | some q =>
    obtain ⟨-, -, h⟩ | ⟨hq, -, g, hw, hpg, -, hg, hgbelow⟩ := checkAccess_some (q := q.1) (w := q.2) hc
    · omega
    · have hgb : g = b := by
        rcases Nat.lt_trichotomy g b with h | h | h
        · exact absurd (hbelow g hpg h) (by simp [hg])
        · exact h
        · exact absurd (hgbelow b hlo h) (by simp [hb])
      rw [← hgb, ← hq, ← hw]

/-- Settles O19. -/
theorem accessPastTopRaisesRange : Obligations.AccessPastTopRaisesRange := by
  intro s i p n hacc htop
  have hv := (verdict_of_accesses hacc).trans (checkAccess_range htop)
  exact ⟨_, exec_of_fault hv, recordFault_faulted _ _ s, recordFault_frame [] _ _ s, rfl⟩

/-- Settles O20: the recorded word is the byte's address, since no address of the space has more than 64 bits. -/
theorem accessOfUnadmittedByteRaisesBus : Obligations.AccessOfUnadmittedByteRaisesBus := by
  intro s i p n b hwf hacc htop hlo hhi hb hbelow
  have hv := (verdict_of_accesses hacc).trans (checkAccess_bus htop hlo hhi hb hbelow)
  have hb64 : b < 2 ^ 64 := by
    simp only [Config.wellFormed, Bool.and_eq_true, decide_eq_true_eq] at hwf
    have := Nat.pow_le_pow_right (n := 2) (by decide) hwf.1.2
    omega
  exact ⟨_, BitVec.ofNat 64 b, exec_of_fault hv, recordFault_faulted _ _ s, Nat.mod_eq_of_lt hb64,
    recordFault_frame [] _ _ s, rfl⟩

/-- Settles O21: the free value is the last one the completion draws. -/
theorem racedAccessCompletesWithFreeValue : Obligations.RacedAccessCompletesWithFreeValue := by
  intro s i p n hacc hread htouched
  have hraced := (readRaced_of_accesses hacc).mpr htouched
  refine ⟨completion i s, s.freeIdx + hiddenDraws i, exec_of_readable hacc hread, completion_completed i s,
    completion_frame i s, fun r hr => ?_, Nat.le_add_right _ _, ?_⟩
  · rw [dests_read_loaded hacc r hr, loaded, if_pos hraced]
  · show s.freeIdx + draws s i = _
    rw [draws, if_pos hraced, Nat.add_assoc]

/-! ### What no engine step and no step at all changes -/

/-- Every commit keeps its frame, whatever CUR holds. -/
theorem commit_frame {s t : State} (h : commit s = .next t) : ∃ ws, CommitFrame ws s t := by
  rcases commit_verdict s with ⟨c, a, -, he⟩ | ⟨i, -, -, he⟩ <;> cases he.symm.trans h
  · exact ⟨[], recordFault_frame [] c a s⟩
  · exact ⟨dests i, completion_frame i s⟩

/-- On each of the three ways the engine takes the step, the step is a commit, up to the schedule. -/
theorem step_commits {s t : State} {rest : List Turn}
    (hs : s.schedule = .engine :: rest ∨ s.schedule = [] ∨ (s.schedule = .host .poll :: rest ∧ s.status.busy = true))
    (h : step s = .next t) : ∃ sch, commit { s with schedule := sch } = .next t := by
  cases hb : s.status.busy with
  | true =>
    obtain hs | hs | ⟨hs, -⟩ := hs
    · exact ⟨rest, (step_engine hs hb).symm.trans h⟩
    · exact ⟨s.schedule, (step_empty hs hb).symm.trans h⟩
    · exact ⟨s.schedule, (step_poll hs hb).symm.trans h⟩
  | false =>
    obtain hs | hs | ⟨-, hbusy⟩ := hs
    · simp [step, hs, takeTurn, engineStep, hb] at h
    · simp [step, hs, noTurn, hb] at h
    · simp [hb] at hbusy

/-- Settles O26. -/
theorem engineNeverWritesMemory : Obligations.EngineNeverWritesMemory := by
  intro s t rest hs h
  obtain ⟨sch, hc⟩ := step_commits hs h
  obtain ⟨ws, hframe⟩ := commit_frame hc
  exact ⟨hframe.mem, hframe.undrained⟩

theorem writeReg_config (s : State) (v : Word) (r : WinReg) : (writeReg s v r).config = s.config := by
  rcases writeReg_cases s v r with h | ⟨-, -, h⟩ | ⟨-, -, -, h⟩ | ⟨-, -, h⟩ | ⟨-, h⟩ | ⟨-, i, h⟩ | ⟨-, j, h⟩ <;>
    rw [h] <;> rfl

theorem drainWrite_config (k : Nat) (s : State) : (drainWrite k s).config = s.config := by
  rcases drainWrite_cases k s with h | ⟨w, -, h⟩ <;> rw [h]
  rfl

/-- Settles O59: nothing that a step can do writes a parameter. -/
theorem noStepChangesThePlatform : Obligations.NoStepChangesThePlatform := by
  intro s t h
  obtain ⟨sch, turned⟩ := step_cases h
  cases turned with
  | commit hb hc =>
    obtain ⟨ws, hframe⟩ := commit_frame hc
    exact hframe.config
  | window => exact writeReg_config _ _ _
  | drain k => exact drainWrite_config k _
  | look | write | post | reset => rfl

/-! ### A host write beside a running command -/

/-- Outside the bytes it writes, a host write leaves memory as it was. -/
theorem agreeOn_putBytes {m : Memory} (hm : Memory.wf m = true) {addr a n : Nat} {bytes : List Byte}
    (hout : ∀ b, a ≤ b → b < a + n → b < addr ∨ addr + bytes.length ≤ b) :
    AgreeOn (Memory.putBytes m addr bytes) m a n :=
  fun b hlo hhi => byteAt_putBytes_outside hm addr bytes (hout b hlo hhi)

theorem overlaps_eq_false {a n b k : Nat} (hout : ∀ c, a ≤ c → c < a + n → c < b ∨ b + k ≤ c) :
    overlaps a n b k = false := by
  rw [← Bool.not_eq_true, overlaps_iff]
  rintro ⟨c, ⟨hlo, hhi⟩, hc⟩
  have := hout c hlo hhi
  omega

/-- A write to none of its bytes leaves a read as raced as it was. -/
theorem raced_hostWrite {s : State} {addr a n : Nat} {bytes : List Byte}
    (hout : ∀ b, a ≤ b → b < a + n → b < addr ∨ addr + bytes.length ≤ b) :
    raced (hostWrite addr bytes s) a n = raced s a n := by
  rw [raced, raced, hostWrite_busyWrites, hostWrite_undrained]
  split
  · rw [List.any_cons, overlaps_eq_false hout, Bool.false_or]
  · rfl

/-- A command that raises no fault computes its value from the bytes of its run alone. -/
theorem readValue_congr {s : State} {i : Instr} {m m' : Memory} (hv : verdict s i = none)
    (h : AgreeOn m m' (readSpan s i).addr (readSpan s i).n) : readValue m s i = readValue m' s i := by
  cases i with
  | nop | mum | mix | xor => rfl
  | rd8 => exact rd8_congr h
  | rd4 => exact rd4_congr h
  | rd3 xd xaddr xk =>
    have hk : ¬ ((source s xk).toNat = 0 ∨ (source s xk).toNat > 3) := fun hbad => by
      simp only [verdict, if_pos hbad] at hv
      cases hv
    exact rd3_congr (Nat.pos_of_ne_zero fun h0 => hk (.inl h0)) h
  | hash => exact wyhash_congr h

/-- A command writes the same values with a host write to bytes it does not read and without it. -/
theorem writesOf_hostWrite {s : State} {i : Instr} {addr : Nat} {bytes : List Byte} (hm : Memory.wf s.mem = true)
    (hv : verdict s i = none) (hout : ∀ b, (readSpan s i).addr ≤ b → b < (readSpan s i).addr + (readSpan s i).n →
      b < addr ∨ addr + bytes.length ≤ b) : writesOf (hostWrite addr bytes s) i = writesOf s i := by
  have hspan : readSpan (hostWrite addr bytes s) i = readSpan s i := by cases i <;> rfl
  have hval : readValue (hostWrite addr bytes s).mem (hostWrite addr bytes s) i = readValue s.mem s i :=
    (readValue_congr_snap rfl rfl _ i).trans (readValue_congr hv (agreeOn_putBytes hm hout))
  have hraced : readRaced (hostWrite addr bytes s) i = readRaced s i := by
    rw [readRaced, hspan, raced_hostWrite hout, readRaced]
  have hload : loaded (hostWrite addr bytes s) i = loaded s i := by
    rw [loaded, loaded, hraced, hval, hostWrite_freeIdx]
  cases i with
  | nop | mum | mix | xor => rfl
  | rd8 xd | rd4 xd | rd3 xd | hash xd => exact congrArg (fun v => [(xd, v)]) hload

/-- Settles O28: a host write changes no verdict, and this one no value. -/
theorem unrelatedHostWriteChangesNoResult : Obligations.UnrelatedHostWriteChangesNoResult := by
  intro s i addr bytes hm hd hout
  have hsame : verdict (hostWrite addr bytes s) i = verdict s i := verdict_congr rfl rfl i
  rw [commit_of_decode hd, commit_of_decode (s := hostWrite addr bytes s) hd]
  rcases exec_verdict i s with ⟨c, a, hv, he⟩ | ⟨hv, he⟩
  · exact ⟨_, _, he, exec_of_fault (hsame.trans hv), rfl, rfl, rfl, rfl⟩
  · obtain ⟨hstatus, haddr, hcmd⟩ := completion_completed i s
    obtain ⟨hstatus', haddr', hcmd'⟩ := completion_completed i (hostWrite addr bytes s)
    refine ⟨_, _, he, exec_of_none (hsame.trans hv), ?_, hstatus'.trans hstatus.symm, haddr'.trans haddr.symm,
      hcmd'.trans hcmd.symm⟩
    rw [completion_x, completion_x, writesOf_hostWrite hm hv hout, hostWrite_x]

/-! ### The host's own accesses -/

theorem step_refused_window {s : State} {rest : List Turn} {addr width : Nat}
    (ho : accessOffset s.config addr width = none) (v : Word) :
    step { s with schedule := .host (.read addr width) :: rest } = .refused .windowAccess ∧
      step { s with schedule := .host (.write addr width v) :: rest } = .refused .windowAccess := by
  constructor <;> simp only [step, takeTurn, hostStep, ho]

/-- Settles O47: the four conditions are those under which an access has an offset. -/
theorem nonconformingAccessRefused : Obligations.NonconformingAccessRefused := by
  intro s rest addr width v _ conforming
  refine ⟨fun h => step_refused_window (if_neg fun h' => h ?_) v, fun h => ?_⟩
  · obtain ⟨hw, hlo, hhi, h8⟩ := h'
    exact ⟨hw, h8, hlo, hhi⟩
  · obtain ⟨hw, h8, hlo, hhi⟩ := h
    have ho : accessOffset s.config addr width = some (addr - s.config.engineBase) := if_pos ⟨hw, hlo, hhi, h8⟩
    exact ⟨⟨_, step_read rfl ho⟩, ⟨_, step_write rfl ho⟩⟩

section

variable {s : State} {rest : List Turn} {addr : Nat} {bytes : List Byte}

theorem step_memWrite (hs : s.schedule = .host (.memWrite addr bytes) :: rest)
    (hin : addr + bytes.length ≤ 2 ^ s.config.addrW) :
    step s = .next (hostWrite addr bytes { s with schedule := rest }) := by
  simp [step, hs, takeTurn, hostStep, insideMemory, hin]

theorem step_postWrite (hs : s.schedule = .host (.postWrite addr bytes) :: rest)
    (hin : addr + bytes.length ≤ 2 ^ s.config.addrW) :
    step s = .next { s with schedule := rest, undrained := s.undrained ++ [⟨addr, bytes⟩] } := by
  simp [step, hs, takeTurn, hostStep, insideMemory, hin]

theorem step_drain {k : Nat} (hs : s.schedule = .host (.drain k) :: rest) :
    step s = .next (drainWrite k { s with schedule := rest }) := by
  simp [step, hs, takeTurn, hostStep]

theorem step_poll_idle (hs : s.schedule = .host .poll :: rest) (hb : s.status.busy = false) :
    step s = .next (observe (.reg (statusWord s.status)) { s with schedule := rest }) := by
  simp [step, hs, takeTurn, hostStep, hb]

/-- The newest of the held-back writes, drained: it reaches memory and the older ones stay. -/
theorem drainWrite_newest {ws : List PostedWrite} (hu : s.undrained = ws ++ [⟨addr, bytes⟩]) :
    drainWrite ws.length s = hostWrite addr bytes { s with undrained := ws } := by
  simp [drainWrite, hu, List.eraseIdx_append_of_length_le]

theorem memWritten_hostWrite (hm : Memory.wf s.mem = true) : MemWritten addr bytes s (hostWrite addr bytes s) where
  written := byteAt_putBytes_inside hm addr bytes
  others _ := byteAt_putBytes_outside hm addr bytes
  x := rfl
  secret := rfl
  status := rfl
  faultAddr := rfl
  faultCmd := rfl
  cur := rfl
  snapX := rfl
  snapS := rfl
  pipe := rfl

end

/-- Settles O48: at once or at its drain, the write is the one `hostWrite`. -/
theorem hostMemWriteRule : Obligations.HostMemWriteRule := by
  intro s rest addr bytes hinv hin
  have hwritten : MemWritten addr bytes s (hostWrite addr bytes { s with schedule := rest }) :=
    { memWritten_hostWrite hinv.canonical with }
  refine ⟨fun hs => ⟨_, step_memWrite hs hin, hwritten⟩, fun hs => ?_⟩
  refine ⟨_, hostWrite addr bytes { s with schedule := rest }, step_postWrite hs hin, fun _ => rfl, rfl, ?_,
    hwritten, rfl⟩
  rw [step_drain rfl, drainWrite_newest rfl]

/-! ### The encoded command decodes to itself (30_encoding.md R56, R58) -/

/-- A field above the lowest part of a word is a field of the part above it. -/
theorem extractLsb'_append_above {n k : Nat} (hi : BitVec n) (lo : BitVec k) (start len : Nat) :
    (hi ++ lo).extractLsb' (k + start) len = hi.extractLsb' start len := by
  rw [BitVec.extractLsb'_append_eq_of_le (Nat.le_add_right k start), Nat.add_sub_cancel_left]

section

variable (op : BitVec 8) (rd ra rb rc : BitVec 4) (z : BitVec 8)

@[simp] theorem fieldZ_layout : fieldZ (layout op rd ra rb rc z) = z :=
  BitVec.extractLsb'_append_eq_right (a := op ++ rd ++ ra ++ rb ++ rc)

@[simp] theorem fieldRc_layout : fieldRc (layout op rd ra rb rc z) = rc :=
  (extractLsb'_append_above (op ++ rd ++ ra ++ rb ++ rc) z 0 4).trans BitVec.extractLsb'_append_eq_right

@[simp] theorem fieldRb_layout : fieldRb (layout op rd ra rb rc z) = rb :=
  calc fieldRb (layout op rd ra rb rc z)
    _ = (op ++ rd ++ ra ++ rb ++ rc).extractLsb' 4 4 := extractLsb'_append_above _ z 4 4
    _ = (op ++ rd ++ ra ++ rb).extractLsb' 0 4 := extractLsb'_append_above _ rc 0 4
    _ = rb := BitVec.extractLsb'_append_eq_right

@[simp] theorem fieldRa_layout : fieldRa (layout op rd ra rb rc z) = ra :=
  calc fieldRa (layout op rd ra rb rc z)
    _ = (op ++ rd ++ ra ++ rb ++ rc).extractLsb' 8 4 := extractLsb'_append_above _ z 8 4
    _ = (op ++ rd ++ ra ++ rb).extractLsb' 4 4 := extractLsb'_append_above _ rc 4 4
    _ = (op ++ rd ++ ra).extractLsb' 0 4 := extractLsb'_append_above _ rb 0 4
    _ = ra := BitVec.extractLsb'_append_eq_right

@[simp] theorem fieldRd_layout : fieldRd (layout op rd ra rb rc z) = rd :=
  calc fieldRd (layout op rd ra rb rc z)
    _ = (op ++ rd ++ ra ++ rb ++ rc).extractLsb' 12 4 := extractLsb'_append_above _ z 12 4
    _ = (op ++ rd ++ ra ++ rb).extractLsb' 8 4 := extractLsb'_append_above _ rc 8 4
    _ = (op ++ rd ++ ra).extractLsb' 4 4 := extractLsb'_append_above _ rb 4 4
    _ = (op ++ rd).extractLsb' 0 4 := extractLsb'_append_above _ ra 0 4
    _ = rd := BitVec.extractLsb'_append_eq_right

@[simp] theorem fieldOp_layout : fieldOp (layout op rd ra rb rc z) = op :=
  calc fieldOp (layout op rd ra rb rc z)
    _ = (op ++ rd ++ ra ++ rb ++ rc).extractLsb' 16 8 := extractLsb'_append_above _ z 16 8
    _ = (op ++ rd ++ ra ++ rb).extractLsb' 12 8 := extractLsb'_append_above _ rc 12 8
    _ = (op ++ rd ++ ra).extractLsb' 8 8 := extractLsb'_append_above _ rb 8 8
    _ = (op ++ rd).extractLsb' 4 8 := extractLsb'_append_above _ ra 4 8
    _ = op := BitVec.extractLsb'_append_eq_left

end

theorem opcodeOf_code (o : Opcode) : opcodeOf o.code = some o := by
  cases o <;> rfl

/-- A word laid out with an opcode's `op` byte and 0 in what its format leaves unused decodes to its fields. -/
theorem decodeWord_layout {o : Opcode} {rd ra rb rc : BitVec 4}
    (hunused : o.format.unusedZero (layout o.code rd ra rb rc 0) = true) :
    decodeWord (layout o.code rd ra rb rc 0) = .ok (o.build (regOf rd) (regOf ra) (regOf rb) (regOf rc)) := by
  simpa [decodeWord, opcodeOf_code] using hunused

theorem decodeWord_encodeWord (i : Instr) : decodeWord (encodeWord i) = .ok i := by
  cases i with
  | nop => exact decodeWord_layout (o := .nop) rfl
  | mum => exact decodeWord_layout (o := .mum) rfl
  | mix => exact decodeWord_layout (o := .mix) (beq_iff_eq.mpr (fieldRc_layout _ _ _ _ _ _))
  | xor => exact decodeWord_layout (o := .xor) (beq_iff_eq.mpr (fieldRc_layout _ _ _ _ _ _))
  | rd8 => exact decodeWord_layout (o := .rd8) (by simp [Opcode.format, Format.unusedZero])
  | rd4 => exact decodeWord_layout (o := .rd4) (by simp [Opcode.format, Format.unusedZero])
  | rd3 => exact decodeWord_layout (o := .rd3) (beq_iff_eq.mpr (fieldRc_layout _ _ _ _ _ _))
  | hash => exact decodeWord_layout (o := .hash) rfl

theorem decode_encode (i : Instr) : decode (encode i) = .ok i := by
  have hhigh : (encode i).extractLsb' 32 32 = 0 := BitVec.extractLsb'_append_eq_left
  have hlow : (encode i).extractLsb' 0 32 = encodeWord i := BitVec.extractLsb'_append_eq_right
  rw [decode, if_pos hhigh, hlow, decodeWord_encodeWord]

/-! ### Litmus tests (20_memory.md R46) -/

/-- Settles O52: the POLL commits, observes STATUS, and leaves the read to see the committed register. -/
theorem pollThenReadSeesCommit : Obligations.PollThenReadSeesCommit := by
  intro s u i hc hb hu hs
  obtain ⟨ws, hframe⟩ := commit_frame hu
  have hidle : u.status.busy = false := by
    obtain ⟨u', hu', hidle⟩ := commit_ends_busy s
    cases hu.symm.trans hu'
    exact hidle
  rw [← hframe.config] at hc hs
  have hcommit : step s = .next u := (step_poll hs hb).trans hu
  have hpoll := step_poll_idle (hframe.schedule.trans hs) hidle
  have hread := (registerReadsReturnCurrentValue
    (observe (.reg (statusWord u.status))
      { u with schedule := [.host (.read (windowAddr u.config (0x80 + 8 * i.val)) 8)] }) [] hc).1 i rfl
  refine ⟨_, (run_next hcommit 2).trans ((run_next hpoll 1).trans (run_next hread 0)), ?_, hidle, rfl⟩
  rw [observe_observed, hframe.observed]
  rfl

/-- Acceptance forgets the race record, so what was untouched before it is untouched after it. -/
theorem untouched_acceptCommand {s : State} {a n : Nat} (h : Untouched s a n) (v : Word) :
    Untouched (acceptCommand v s) a n := by
  intro b hlo hhi ht
  obtain ⟨w, hw, -⟩ | hheld := ht
  · cases hw
  · exact h b hlo hhi (.inr hheld)

/-- The engine's turn of a command with a readable access that the host left alone. -/
theorem step_engine_reads {s : State} {rest : List Turn} {i : Instr} {p : Word} {n : Nat}
    (hs : s.schedule = .engine :: rest) (hb : s.status.busy = true) (hd : decode s.cur = .ok i)
    (hacc : Accesses s i p n) (hread : Readable s.config p.toNat n) (hu : Untouched s p.toNat n) :
    ∃ t, step s = .next t ∧ t.status.done = true ∧ t.mem = s.mem ∧
      ∀ r ∈ dests i, t.x[r] = readValue s.mem s i := by
  have hacc' : Accesses { s with schedule := rest } i p n := accesses_congr (s := s) rfl ▸ hacc
  refine ⟨completion i { s with schedule := rest }, ?_, ?_, completion_mem i _, fun r hr => ?_⟩
  · rw [step_engine hs hb, commit_of_decode (s := { s with schedule := rest }) hd, exec_of_readable hacc' hread]
  · rw [(completion_completed i _).status]
  · rw [dests_read_loaded hacc' r hr, loaded_of_untouched hacc' hu]
    exact readValue_congr_snap rfl rfl _ i

/-- Settles O53: the write lands in the memory that stands when the command is accepted. -/
theorem commandSeesEarlierHostWrite : Obligations.CommandSeesEarlierHostWrite := by
  intro s i p n addr bytes hinv hb he hacc hread hu hin hs
  have hwrite := step_memWrite hs hin
  have haccept := (cmdWriteRule (hostWrite addr bytes { s with schedule :=
    [.host (.write (windowAddr s.config 0x10) 8 (encode i)), .engine] }) [.engine] (encode i) hinv.platform rfl).1
    ⟨hb, he⟩
  obtain ⟨t, hcommit, hdone, hmem, hdests⟩ := step_engine_reads
    (s := acceptCommand (encode i) (hostWrite addr bytes { s with schedule := [.engine] })) rfl rfl (decode_encode i)
    (accesses_congr (s := acceptCommand (encode i) s) rfl ▸ hacc) hread (untouched_acceptCommand hu (encode i))
  rw [acceptCommand_mem, hostWrite_mem] at hmem hdests
  refine ⟨t, (run_next hwrite 2).trans ((run_next haccept 1).trans (run_next hcommit 0)), hdone, ?_⟩
  rw [hmem]
  refine ⟨byteAt_putBytes_inside hinv.memory.canonical addr bytes,
    fun a ha => byteAt_putBytes_outside hinv.memory.canonical addr bytes ha, fun r hr => ?_⟩
  rw [hdests r hr]
  exact readValue_congr_snap rfl rfl _ i

end Sys2Proof.Machine

/-! ## Proofs: the encoding (30_encoding.md) -/

namespace Sys2Proof.Machine

/-! ### A word is its fields (30_encoding.md R52) -/

theorem layout_fields (w : CmdWord) :
    layout (fieldOp w) (fieldRd w) (fieldRa w) (fieldRb w) (fieldRc w) (fieldZ w) = w := by
  unfold layout fieldOp fieldRd fieldRa fieldRb fieldRc fieldZ
  iterate 5 rw [BitVec.extractLsb'_append_extractLsb'_eq_extractLsb' (by rfl)]
  exact BitVec.extractLsb'_eq_self

theorem layout_inj {op op' : BitVec 8} {rd ra rb rc rd' ra' rb' rc' : BitVec 4} {z z' : BitVec 8} :
    layout op rd ra rb rc z = layout op' rd' ra' rb' rc' z' ↔
      op = op' ∧ rd = rd' ∧ ra = ra' ∧ rb = rb' ∧ rc = rc' ∧ z = z' := by
  constructor
  · intro h
    exact ⟨by simpa using congrArg fieldOp h, by simpa using congrArg fieldRd h, by simpa using congrArg fieldRa h,
      by simpa using congrArg fieldRb h, by simpa using congrArg fieldRc h, by simpa using congrArg fieldZ h⟩
  · rintro ⟨rfl, rfl, rfl, rfl, rfl, rfl⟩
    rfl

/-! ### The opcode map by opcode (30_encoding.md R53, R55)

Every row of the map is made of its opcode: its match is the `op` byte alone, its mask is that of its format. -/

/-- The mask of a format: `op`, `z` and the register fields that the format does not use. -/
def formatMask : Format → CmdWord
  | .n => layout (.allOnes 8) (.allOnes 4) (.allOnes 4) (.allOnes 4) (.allOnes 4) (.allOnes 8)
  | .r2 => layout (.allOnes 8) 0 0 (.allOnes 4) (.allOnes 4) (.allOnes 8)
  | .r3 => layout (.allOnes 8) 0 0 0 (.allOnes 4) (.allOnes 8)
  | .r4 => layout (.allOnes 8) 0 0 0 0 (.allOnes 8)

/-- The row of an opcode. -/
def rowOf (o : Opcode) : MapRow := ⟨o, layout o.code 0 0 0 0 0, formatMask o.format⟩

theorem opcodeMap_eq_map_rowOf :
    opcodeMap = [.nop, .mum, .mix, .xor, .rd8, .rd4, .rd3, .hash].map rowOf := by decide

theorem mem_opcodeMap_iff {r : MapRow} : r ∈ opcodeMap ↔ ∃ o, r = rowOf o := by
  rw [opcodeMap_eq_map_rowOf, List.mem_map]
  constructor
  · rintro ⟨o, -, rfl⟩
    exact ⟨o, rfl⟩
  · rintro ⟨o, rfl⟩
    exact ⟨o, by cases o <;> decide, rfl⟩

/-- A word agrees with an `op` byte under a format's mask exactly if it has that byte and 0 in `z` and in what the
format leaves unused. -/
theorem and_formatMask_iff (f : Format) (w : CmdWord) (op : BitVec 8) :
    w &&& formatMask f = layout op 0 0 0 0 0 ↔ fieldOp w = op ∧ fieldZ w = 0 ∧ f.unusedZero w = true := by
  conv_lhs => rw [← layout_fields w]
  cases f <;> simp [-BitVec.reduceAllOnes, formatMask, Laws.EncodedRow.mask_layout, layout_inj, Format.unusedZero]
  all_goals tauto

theorem and_rowOf_iff (o : Opcode) (w : CmdWord) :
    w &&& (rowOf o).mask = (rowOf o).value ↔
      fieldOp w = o.code ∧ fieldZ w = 0 ∧ o.format.unusedZero w = true :=
  and_formatMask_iff o.format w o.code

theorem code_injective : Function.Injective Opcode.code := fun o q h =>
  Option.some.inj ((opcodeOf_code o).symm.trans (h ▸ opcodeOf_code q))

/-- Settles O4: a word has one `op` byte, and a row is made of its opcode. -/
theorem opcodeRowsDisjoint : Obligations.OpcodeRowsDisjoint := by
  intro w r q hr hq hwr hwq
  obtain ⟨o, rfl⟩ := mem_opcodeMap_iff.mp hr
  obtain ⟨o', rfl⟩ := mem_opcodeMap_iff.mp hq
  have hcode : o.code = o'.code := ((and_rowOf_iff o w).mp hwr).1.symm.trans ((and_rowOf_iff o' w).mp hwq).1
  rw [code_injective hcode]

/-! ### What decodes (30_encoding.md R56) -/

theorem opcodeOf_eq_some_iff {b : BitVec 8} {o : Opcode} : opcodeOf b = some o ↔ b = o.code := by
  constructor
  · intro h
    unfold opcodeOf at h
    split_ifs at h <;> cases h <;> assumption
  · rintro rfl
    exact opcodeOf_code o

/-- The command of an opcode with the fields of a word as its operands. -/
def buildFrom (o : Opcode) (w : CmdWord) : Instr :=
  o.build (regOf (fieldRd w)) (regOf (fieldRa w)) (regOf (fieldRb w)) (regOf (fieldRc w))

/-- The decoder takes a word exactly where a row of the map selects it, and gives the row's command. -/
theorem decodeWord_eq_ok_iff {w : CmdWord} {i : Instr} :
    decodeWord w = .ok i ↔ ∃ o, w &&& (rowOf o).mask = (rowOf o).value ∧ buildFrom o w = i := by
  simp only [and_rowOf_iff]
  constructor
  · intro h
    unfold decodeWord at h
    split at h
    · cases h
    · rename_i o ho
      split_ifs at h with hz hu
      exact ⟨o, ⟨opcodeOf_eq_some_iff.mp ho, not_not.mp hz, hu⟩, Except.ok.inj h⟩
  · rintro ⟨o, ⟨hop, hz, hu⟩, rfl⟩
    simp [decodeWord, hop, opcodeOf_code, hz, hu, buildFrom]

theorem decode_eq_ok_iff {v : Word} {i : Instr} :
    decode v = .ok i ↔ v.extractLsb' 32 32 = 0 ∧ decodeWord (v.extractLsb' 0 32) = .ok i := by
  unfold decode
  split
  · exact (and_iff_right ‹_›).symm
  · exact iff_of_false nofun (fun h => absurd h.1 ‹_›)

/-- Settles O3: a word decodes exactly where a row of the map selects it, and to that row's command. -/
theorem commitDecodesByOpcodeMap : Obligations.CommitDecodesByOpcodeMap := by
  intro s w
  constructor
  · intro hhigh r hr hsel
    obtain ⟨o, rfl⟩ := mem_opcodeMap_iff.mp hr
    exact commit_of_decode (decode_eq_ok_iff.mpr ⟨hhigh, decodeWord_eq_ok_iff.mpr ⟨o, hsel, rfl⟩⟩)
  · intro hbad
    obtain ⟨-, -, hcommit⟩ | ⟨i, hd, -⟩ := commit_cases s
    · exact ⟨_, hcommit, recordFault_faulted .illegal 0 s, recordFault_frame [] .illegal 0 s, rfl⟩
    · obtain ⟨hhigh, hlow⟩ := decode_eq_ok_iff.mp hd
      obtain ⟨o, hsel, -⟩ := decodeWord_eq_ok_iff.mp hlow
      obtain hne | hnone := hbad
      · exact absurd hhigh hne
      · exact absurd hsel (hnone _ (mem_opcodeMap_iff.mpr ⟨o, rfl⟩))

/-! ### The two directions of the encoding (30_encoding.md R57, R58) -/

/-- Settles O1: the fields of a laid-out word are those laid out. -/
theorem decodeOfEncode : Obligations.DecodeOfEncode := fun i _ => decode_encode i

/-- A command built from fields has the word laid out from them, if what its format leaves unused is 0. -/
theorem encodeWord_build {o : Opcode} {rd ra rb rc : BitVec 4}
    (hunused : o.format.unusedZero (layout o.code rd ra rb rc 0) = true) :
    encodeWord (o.build (regOf rd) (regOf ra) (regOf rb) (regOf rc)) = layout o.code rd ra rb rc 0 := by
  cases o with
  | nop =>
    obtain ⟨⟨⟨rfl, rfl⟩, rfl⟩, rfl⟩ : ((rd = 0 ∧ ra = 0) ∧ rb = 0) ∧ rc = 0 := by
      simpa [Opcode.format, Format.unusedZero] using hunused
    rfl
  | rd8 | rd4 =>
    obtain ⟨rfl, rfl⟩ : rb = 0 ∧ rc = 0 := by simpa [Opcode.format, Format.unusedZero] using hunused
    rfl
  | mix | xor | rd3 =>
    obtain rfl : rc = 0 := by simpa [Opcode.format, Format.unusedZero] using hunused
    rfl
  | mum | hash => rfl

/-- The command of the row that selects a word encodes to that word. -/
theorem encodeWord_buildFrom {o : Opcode} {w : CmdWord} (h : w &&& (rowOf o).mask = (rowOf o).value) :
    encodeWord (buildFrom o w) = w := by
  obtain ⟨hop, hz, hunused⟩ := (and_rowOf_iff o w).mp h
  have hw : layout o.code (fieldRd w) (fieldRa w) (fieldRb w) (fieldRc w) 0 = w := by
    rw [← hop, ← hz, layout_fields]
  rw [buildFrom, encodeWord_build (by rwa [hw]), hw]

/-- Settles O2: the upper half is 0 and the lower half is the word of the row that selects it. -/
theorem encodeOfDecode : Obligations.EncodeOfDecode := by
  intro v i h
  obtain ⟨hhigh, hlow⟩ := decode_eq_ok_iff.mp h
  obtain ⟨o, hsel, rfl⟩ := decodeWord_eq_ok_iff.mp hlow
  calc encode (buildFrom o (v.extractLsb' 0 32))
    _ = v.extractLsb' 32 32 ++ v.extractLsb' 0 32 := by rw [encode, encodeWord_buildFrom hsel, hhigh]; rfl
    _ = v.extractLsb' 0 64 := BitVec.extractLsb'_append_extractLsb'_eq_extractLsb' rfl
    _ = v := BitVec.extractLsb'_eq_self

/-- Settles O5: nine closed words, evaluated. -/
theorem exampleWordsDecode : Obligations.ExampleWordsDecode := by
  unfold Obligations.ExampleWordsDecode
  decide

end Sys2Proof.Machine

/-! ## Proofs: the mixing engine (40_wide_multiply_and_mix.md) -/

namespace Sys2Proof.Machine

/-! ### The exact product and its halves -/

@[simp] theorem toNat_mum_lo (a b : Word) : (mum a b).1.toNat = a.toNat * b.toNat % 2 ^ 64 := by
  rw [mum, BitVec.toNat_ofNat, Nat.mod_mod]

@[simp] theorem toNat_mum_hi (a b : Word) : (mum a b).2.toNat = a.toNat * b.toNat / 2 ^ 64 := by
  have hlt : a.toNat * b.toNat < 2 ^ 64 * 2 ^ 64 := Nat.mul_lt_mul'' a.isLt b.isLt
  rw [mum, BitVec.toNat_ofNat, Nat.mod_eq_of_lt (Nat.div_lt_of_lt_mul hlt)]

/-- The two halves are the whole product (R61). -/
theorem mum_halves (a b : Word) :
    (mum a b).1.toNat + 2 ^ 64 * (mum a b).2.toNat = a.toNat * b.toNat := by
  rw [toNat_mum_lo, toNat_mum_hi, Nat.mod_add_div]

@[simp] theorem toNat_mix (a b : Word) :
    (mix a b).toNat = (a.toNat * b.toNat % 2 ^ 64) ^^^ (a.toNat * b.toNat / 2 ^ 64) := by
  rw [mix, BitVec.toNat_xor, toNat_mum_lo, toNat_mum_hi]

/-- Each factor is its two 32-bit halves, and the product of the sums is the four cross products (R62). -/
theorem schoolbookProduct_eq_mul (a b : Word) : schoolbookProduct a b = a.toNat * b.toNat := by
  calc schoolbookProduct a b
    _ = (2 ^ 32 * (a.toNat / 2 ^ 32) + a.toNat % 2 ^ 32) * (2 ^ 32 * (b.toNat / 2 ^ 32) + b.toNat % 2 ^ 32) := by
      rw [schoolbookProduct]
      ring
    _ = a.toNat * b.toNat := by rw [Nat.div_add_mod, Nat.div_add_mod]

/-- Settles O29: both are the product of the two numbers. -/
theorem crossProductsGiveTheProduct : Obligations.CrossProductsGiveTheProduct := by
  intro a b
  refine ⟨schoolbookProduct_eq_mul a b, ?_⟩
  rw [schoolbookProduct_eq_mul, ← mum_halves]
  ring

/-! ### The laws of R64 -/

theorem mum_comm (a b : Word) : mum a b = mum b a := by
  rw [mum, mum, Nat.mul_comm]

theorem zero_mum (b : Word) : mum 0 b = (0, 0) := by
  have h0 : (0 : Word).toNat * b.toNat = 0 := Nat.zero_mul _
  rw [mum, h0]
  rfl

theorem one_mum (b : Word) : mum 1 b = (b, 0) := by
  have h1 : (1 : Word).toNat * b.toNat = b.toNat := Nat.one_mul _
  rw [mum, h1, Nat.mod_eq_of_lt b.isLt, Nat.div_eq_of_lt b.isLt, BitVec.ofNat_toNat, BitVec.setWidth_eq]
  rfl

theorem mix_comm (a b : Word) : mix a b = mix b a := by
  rw [mix, mum_comm, mix]

theorem zero_mix (b : Word) : mix 0 b = 0 := by
  rw [mix, zero_mum]
  exact BitVec.xor_self

theorem one_mix (b : Word) : mix 1 b = b := by
  rw [mix, one_mum]
  exact BitVec.xor_zero

/-- A product that fits in the low half is its own fold. -/
theorem toNat_mix_of_lt {a b : Word} (h : a.toNat * b.toNat < 2 ^ 64) : (mix a b).toNat = a.toNat * b.toNat := by
  rw [toNat_mix, Nat.mod_eq_of_lt h, Nat.div_eq_of_lt h, Nat.xor_zero]

/-- Settles O30. -/
theorem multiplyLaws : Obligations.MultiplyLaws := fun a b =>
  ⟨mum_comm a b, zero_mum b, one_mum b, by decide, mix_comm a b, zero_mix b, one_mix b, toNat_mix_of_lt⟩

/-! ### The four compute commands -/

/-- A command with no fault in its verdict completes within its frame and writes the registers of its list. -/
theorem exec_completes {i : Instr} {s : State} (h : verdict s i = none) :
    ∃ t, exec i s = .next t ∧ Completed s t ∧ CommitFrame (dests i) s t ∧ t.x = writeRegs s.x (writesOf s i) :=
  ⟨completion i s, exec_of_none h, completion_completed i s, completion_frame i s, completion_x i s⟩

/-- Settles O9: two destinations that differ keep one half each. -/
theorem mumWritesExactProduct : Obligations.MumWritesExactProduct := by
  intro s xlo xhi xa xb hne
  obtain ⟨t, hexec, hdone, hframe, hx⟩ := exec_completes (i := .mum xlo xhi xa xb) (s := s) (if_neg hne)
  refine ⟨t, hexec, hdone, hframe, ?_⟩
  rw [hx, writesOf, writeRegs_first _ _ hne, writeRegs_second, mum_halves, source, source]

/-- Settles O11. -/
theorem mixWritesFoldedProduct : Obligations.MixWritesFoldedProduct := by
  intro s xd xa xb
  obtain ⟨t, hexec, hdone, hframe, hx⟩ := exec_completes (i := .mix xd xa xb) (s := s) rfl
  refine ⟨t, hexec, hdone, hframe, ?_⟩
  rw [hx, writesOf, writeRegs_one, toNat_mix, source, source]

/-- Settles O12. -/
theorem xorWritesExclusiveOr : Obligations.XorWritesExclusiveOr := by
  intro s xd xa xb
  obtain ⟨t, hexec, hdone, hframe, hx⟩ := exec_completes (i := .xor xd xa xb) (s := s) rfl
  refine ⟨t, hexec, hdone, hframe, fun n => ?_⟩
  rw [hx, writesOf, writeRegs_one, BitVec.getLsbD_xor, source, source]

/-- Settles O8: NOP has no destination. -/
theorem nopCompletes : Obligations.NopCompletes := by
  intro s
  obtain ⟨t, hexec, hdone, hframe, -⟩ := exec_completes (i := .nop) (s := s) rfl
  exact ⟨t, hexec, hdone, hframe⟩

/-- Settles O10: the verdict is OPERAND, and a recorded fault writes no register. -/
theorem mumOneDestinationFaults : Obligations.MumOneDestinationFaults := fun s _ _ _ =>
  ⟨recordFault .operand 0 s, exec_of_fault (if_pos rfl), recordFault_faulted .operand 0 s,
    recordFault_frame [] .operand 0 s⟩

end Sys2Proof.Machine

/-! ## Proofs: the byte reader (41_byte_reader.md) -/

namespace Sys2Proof.Machine

/-! ### The three readings as sums of bytes -/

/-- `LE_n` of a run of memory: each byte weighs 256 times the one before it (20_memory.md R38). -/
theorem littleEndian_memRead (m : Memory) (p n : Nat) :
    littleEndian (memRead m p n) = (Finset.range n).sum (fun i => (Memory.byteAt m (p + i)).toNat * 2 ^ (8 * i)) := by
  induction n with
  | zero => rfl
  | succ n ih =>
    have hlast : littleEndian (memRead m (p + n) 1) = (Memory.byteAt m (p + n)).toNat := rfl
    rw [memRead_append, littleEndian_append, length_memRead, ih, hlast, Finset.sum_range_succ, Nat.mul_comm (2 ^ _)]

/-- A run of at most 8 bytes fits in a word. -/
theorem toNat_ofNat_littleEndian_memRead (m : Memory) (p : Nat) {n : Nat} (hn : n ≤ 8) :
    (BitVec.ofNat 64 (littleEndian (memRead m p n))).toNat =
      (Finset.range n).sum (fun i => (Memory.byteAt m (p + i)).toNat * 2 ^ (8 * i)) := by
  have hlt : littleEndian (memRead m p n) < 2 ^ 64 :=
    calc littleEndian (memRead m p n)
      _ < 2 ^ (8 * (memRead m p n).length) := littleEndian_lt _
      _ ≤ 2 ^ 64 := Nat.pow_le_pow_right (by decide) (by rw [length_memRead]; omega)
  rw [BitVec.toNat_ofNat, Nat.mod_eq_of_lt hlt, littleEndian_memRead]

theorem toNat_rd8 (m : Memory) (p : Nat) :
    (rd8 m p).toNat = (Finset.range 8).sum (fun i => (Memory.byteAt m (p + i)).toNat * 2 ^ (8 * i)) :=
  toNat_ofNat_littleEndian_memRead m p (by decide)

theorem toNat_rd4 (m : Memory) (p : Nat) :
    (rd4 m p).toNat = (Finset.range 4).sum (fun i => (Memory.byteAt m (p + i)).toNat * 2 ^ (8 * i)) :=
  toNat_ofNat_littleEndian_memRead m p (by decide)

/-- A byte shifted within a word loses no bit. -/
theorem toNat_byte_shiftLeft (a : Byte) {n : Nat} (hn : n ≤ 56) :
    ((a.setWidth 64 : Word) <<< n).toNat = a.toNat <<< n := by
  have hlt : a.toNat <<< n < 2 ^ 64 :=
    (Nat.shiftLeft_lt a.isLt).trans_le (Nat.pow_le_pow_right (by decide) (by omega))
  rw [BitVec.toNat_shiftLeft, BitVec.toNat_setWidth_of_le (by decide), Nat.mod_eq_of_lt hlt]

/-- Three bytes side by side in a word do not overlap, so their union is their sum. -/
theorem toNat_pack_bytes (a b c : Byte) :
    (((a.setWidth 64 : Word) <<< 16) ||| (b.setWidth 64 <<< 8) ||| c.setWidth 64).toNat =
      a.toNat * 2 ^ 16 + b.toNat * 2 ^ 8 + c.toNat := by
  have hlt : b.toNat <<< 8 + c.toNat < 2 ^ 16 := by
    have hb := b.isLt
    have hc := c.isLt
    rw [Nat.shiftLeft_eq]
    omega
  rw [BitVec.toNat_or, BitVec.toNat_or, toNat_byte_shiftLeft a (by decide), toNat_byte_shiftLeft b (by decide),
    BitVec.toNat_setWidth_of_le (by decide), Nat.or_assoc, ← Nat.shiftLeft_add_eq_or_of_lt c.isLt,
    ← Nat.shiftLeft_add_eq_or_of_lt hlt, Nat.shiftLeft_eq, Nat.shiftLeft_eq, Nat.add_assoc]

theorem toNat_rd3 (m : Memory) (p k : Nat) :
    (rd3 m p k).toNat = (Memory.byteAt m p).toNat * 2 ^ 16 + (Memory.byteAt m (p + k / 2)).toNat * 2 ^ 8 +
      (Memory.byteAt m (p + k - 1)).toNat :=
  toNat_pack_bytes _ _ _

/-! ### The three commands -/

/-- A command whose bytes are readable and untouched completes within its frame, with the value it read in its
destination. -/
theorem exec_reads {s : State} {i : Instr} {p : Word} {n : Nat} (h : Accesses s i p n)
    (hr : Readable s.config p.toNat n) (hu : Untouched s p.toNat n) :
    ∃ t, exec i s = .next t ∧ Completed s t ∧ CommitFrame (dests i) s t ∧
      ∀ r ∈ dests i, t.x[r] = readValue s.mem s i :=
  ⟨completion i s, exec_of_readable h hr, completion_completed i s, completion_frame i s,
    fun r hd => (dests_read_loaded h r hd).trans (loaded_of_untouched h hu)⟩

/-- Settles O13. -/
theorem rd8WritesLittleEndian : Obligations.Rd8WritesLittleEndian := by
  intro s xd xaddr p hr hu
  obtain ⟨t, hexec, hdone, hframe, hx⟩ := exec_reads (i := .rd8 xd xaddr) ⟨rfl, rfl⟩ hr hu
  refine ⟨t, hexec, hdone, hframe, ?_⟩
  rw [hx xd List.mem_cons_self, readValue, toNat_rd8]

/-- Settles O14. -/
theorem rd4WritesLittleEndian : Obligations.Rd4WritesLittleEndian := by
  intro s xd xaddr p hr hu
  obtain ⟨t, hexec, hdone, hframe, hx⟩ := exec_reads (i := .rd4 xd xaddr) ⟨rfl, rfl⟩ hr hu
  refine ⟨t, hexec, hdone, hframe, ?_⟩
  rw [hx xd List.mem_cons_self, readValue, toNat_rd4]

/-- Settles O15: a count of 1 to 3 passes the operand check, so the one access is that of `k` bytes. -/
theorem rd3WritesPackedSample : Obligations.Rd3WritesPackedSample := by
  intro s xd xaddr xk p k hk1 hk3 hr hu
  obtain ⟨t, hexec, hdone, hframe, hx⟩ := exec_reads (i := .rd3 xd xaddr xk) ⟨rfl, rfl, hk1, hk3⟩ hr hu
  refine ⟨t, hexec, hdone, hframe, ?_⟩
  rw [hx xd List.mem_cons_self, readValue, toNat_rd3]

/-- Settles O16: the verdict on the count comes before the check of the address. -/
theorem rd3BadCountFaults : Obligations.Rd3BadCountFaults := fun s _ _ _ hk =>
  ⟨recordFault .operand 0 s, exec_of_fault (if_pos hk), recordFault_faulted .operand 0 s,
    recordFault_frame [] .operand 0 s⟩

end Sys2Proof.Machine

/-! ## Proofs: the hash pipeline (42_hash_pipeline.md) -/

namespace Sys2Proof.Machine

/-! ### The digest (R77, R80, R88) -/

/-- Settles O33. -/
theorem pipelineComputesWyhash : Obligations.PipelineComputesWyhash := pipeline_digest

/-- Settles O36. -/
theorem digestDependsOnKeyBytesOnly : Obligations.DigestDependsOnKeyBytesOnly := fun _ _ _ => wyhash_congr

theorem shortReads_four {m : Memory} {p n : Nat} (hn : 4 ≤ n) :
    shortReads m p n = ((rd4 m p <<< 32) ||| rd4 m (p + shortOffset n),
      (rd4 m (p + n - 4) <<< 32) ||| rd4 m (p + n - 4 - shortOffset n)) := if_pos hn

/-- Settles O32: the columns are `0`, `o`, `len - 4` and `len - 4 - o`. -/
theorem shortKeyReadOffsets : Obligations.ShortKeyReadOffsets := by
  intro m p len o aHigh aLow bHigh bLow hrow
  have hcols : 4 ≤ len ∧ shortOffset len = o ∧ aHigh = 0 ∧ aLow = o ∧ bHigh + 4 = len ∧ bLow + o = bHigh ∧
      aLow + 4 ≤ len := by
    simp only [List.mem_cons, Prod.mk.injEq, List.not_mem_nil, or_false] at hrow
    rcases hrow with h | h | h | h | h | h | h | h | h | h | h | h | h <;>
      obtain ⟨rfl, rfl, rfl, rfl, rfl, rfl⟩ := h <;> decide
  obtain ⟨hlen, ho, rfl, rfl, hbHigh, hbLow, haLow⟩ := hcols
  have hhigh : p + len - 4 = p + bHigh := by omega
  have hlow : p + bHigh - aLow = p + bLow := by omega
  refine ⟨ho, ?_, by omega, haLow, by omega, by omega⟩
  rw [shortReads_four hlen, ho, hhigh, hlow, Nat.add_zero]

/-! ### HASH of a readable or an empty key (R90) -/

/-- HASH's check passes exactly on the empty key and on readable keys. -/
theorem hashCheck_none_iff (c : Config) (k : HashArgs) :
    hashCheck c k = none ↔ k.len = 0 ∨ Readable c k.p0.toNat k.len.toNat := by
  unfold hashCheck
  split
  · simp only [*, true_or]
  · simp only [*, false_or, checkAccess_none_iff]

/-- Settles O17: the check passes, and with no race the value loaded is the digest of memory as it stands. -/
theorem hashWritesDigest : Obligations.HashWritesDigest := by
  intro s xd xaddr xlen xseed k hread huntouched
  obtain ⟨t, hexec, hdone, hframe, hx⟩ := exec_completes (i := .hash xd xaddr xlen xseed)
    ((hashCheck_none_iff s.config k).mpr hread)
  have hraced : readRaced s (.hash xd xaddr xlen xseed) = false := (raced_eq_false_iff s _ _).mpr huntouched
  have hloaded : loaded s (.hash xd xaddr xlen xseed) = wyhash s.mem k := by
    rw [loaded, hraced]
    rfl
  exact ⟨t, hexec, hdone, hframe, by rw [hx, writesOf, writeRegs_one, hloaded]⟩

theorem wyhash_empty {m : Memory} {k : HashArgs} (h : k.len = 0) :
    wyhash m k = finalise 0 0 (whiten k.seed k.S) 0 k.S := by
  have hn : k.len.toNat = 0 := by rw [h]; rfl
  rw [wyhash_short (by omega), hn, h]
  rfl

/-- Settles O18: an empty key has no byte to check or to race, and reads nothing. -/
theorem hashOfEmptyKey : Obligations.HashOfEmptyKey := by
  intro s xd xaddr xlen xseed hlen
  have huntouched : Untouched s s.snapX[xaddr].toNat s.snapX[xlen].toNat := by
    rw [hlen]
    exact (raced_eq_false_iff s _ 0).mp (raced_no_bytes s _)
  obtain ⟨t, hexec, hdone, hframe, hx⟩ := hashWritesDigest s xd xaddr xlen xseed (.inl hlen) huntouched
  refine ⟨t, hexec, hdone, hframe, ?_⟩
  rw [hx, wyhash_empty hlen]
  simp [finalise, whiten]

/-! ### What a row of R89 reads is all it uses -/

theorem shortReads_congr_of_rowReads {m m' : Memory} {k : HashArgs} {p : Pipeline} (hp : p.phase = .short)
    (h : ∀ r ∈ rowReads k p, AgreeOn m m' r.addr r.n) :
    shortReads m p.ptr k.len.toNat = shortReads m' p.ptr k.len.toNat := by
  simp only [rowReads, hp] at h
  by_cases h4 : 4 ≤ k.len.toNat
  · simp only [if_pos h4, List.forall_mem_cons] at h
    obtain ⟨haHigh, haLow, hbHigh, hbLow, -⟩ := h
    rw [shortReads_four h4, shortReads_four h4, rd4_congr haHigh, rd4_congr haLow, rd4_congr hbHigh, rd4_congr hbLow]
  · by_cases h0 : 0 < k.len.toNat
    · simp only [if_neg h4, if_pos h0, List.forall_mem_cons] at h
      obtain ⟨hfirst, hmiddle, hlast, -⟩ := h
      simp only [shortReads, if_neg h4, if_pos h0, rd3, hfirst _ (Nat.le_refl _) (Nat.lt_succ_self _),
        hmiddle _ (Nat.le_refl _) (Nat.lt_succ_self _), hlast _ (Nat.le_refl _) (Nat.lt_succ_self _)]
    · simp only [shortReads, if_neg h4, if_neg h0]

theorem absorb_congr_of_reads {m m' : Memory} {p : Nat} (hlow : AgreeOn m m' p 8) (hhigh : AgreeOn m m' (p + 8) 8)
    (secret see : Word) : absorb m p secret see = absorb m' p secret see := by
  rw [absorb, absorb, rd8_congr hlow, rd8_congr hhigh]

/-- Settles O38, row by row. -/
theorem pipelineRowUsesOnlyItsReads : Obligations.PipelineRowUsesOnlyItsReads := by
  intro m m' k p h
  replace h : ∀ r ∈ rowReads k p, AgreeOn m m' r.addr r.n := h
  cases hp : p.phase with
  | init | fold | final => simp only [pipeStep, hp]
  | short => rw [pipeStep_short hp, pipeStep_short hp, shortReads_congr_of_rowReads hp h]
  | bulk48 =>
    simp only [rowReads, hp, List.forall_mem_cons] at h
    obtain ⟨h0, h8, h16, h24, h32, h40, -⟩ := h
    rw [pipeStep_bulk48 hp, pipeStep_bulk48 hp, absorb_congr_of_reads h0 h8, absorb_congr_of_reads h16 h24,
      absorb_congr_of_reads h32 h40]
  | tail16 =>
    by_cases hr : 16 < p.rem.toNat
    · simp only [rowReads, hp, if_pos hr, List.forall_mem_cons] at h
      obtain ⟨h0, h8, -⟩ := h
      rw [pipeStep_tail16_more hp hr, pipeStep_tail16_more hp hr, absorb_congr_of_reads h0 h8]
    · rw [pipeStep_tail16_leave hp (by omega), pipeStep_tail16_leave hp (by omega)]
  | last16 =>
    simp only [rowReads, hp, List.forall_mem_cons] at h
    obtain ⟨hlow, hhigh, -⟩ := h
    rw [pipeStep_last16 hp, pipeStep_last16 hp, rd8_congr hlow, rd8_congr hhigh]

/-! ### Where the rows of R89 go

PHASE, PTR and REM move by the length and the address alone. `RowMove` says once what a row does to them, `RowInv` is
what holds of them between the rows, and `pipe_induction` runs the rows to FINAL. -/

/-- One row before FINAL takes PHASE, PTR and REM of `q` to those of `q'`. -/
inductive RowMove (k : HashArgs) (q q' : Pipeline) : Prop where
  | initShort (hq : q.phase = .init) (hq' : q'.phase = .short) (hptr : q'.ptr = k.p0.toNat)
      (hrem : q'.rem.toNat = k.len.toNat) (hn : k.len.toNat ≤ 16)
  | initBulk (hq : q.phase = .init) (hq' : q'.phase = .bulk48) (hptr : q'.ptr = k.p0.toNat)
      (hrem : q'.rem.toNat = k.len.toNat) (hn : 48 ≤ k.len.toNat)
  | initTail (hq : q.phase = .init) (hq' : q'.phase = .tail16) (hptr : q'.ptr = k.p0.toNat)
      (hrem : q'.rem.toNat = k.len.toNat) (hn : 16 < k.len.toNat ∧ k.len.toNat < 48)
  | short (hq : q.phase = .short) (hq' : q'.phase = .final) (hptr : q'.ptr = q.ptr)
      (hrem : q'.rem.toNat = q.rem.toNat)
  | bulkAgain (hq : q.phase = .bulk48) (hq' : q'.phase = .bulk48) (hptr : q'.ptr = q.ptr + 48)
      (hrem : q'.rem.toNat + 48 = q.rem.toNat) (hn : 48 ≤ q'.rem.toNat)
  | bulkLeave (hq : q.phase = .bulk48) (hq' : q'.phase = .fold) (hptr : q'.ptr = q.ptr + 48)
      (hrem : q'.rem.toNat + 48 = q.rem.toNat) (hn : q'.rem.toNat < 48)
  | fold (hq : q.phase = .fold) (hq' : q'.phase = .tail16) (hptr : q'.ptr = q.ptr)
      (hrem : q'.rem.toNat = q.rem.toNat)
  | tailAgain (hq : q.phase = .tail16) (hq' : q'.phase = .tail16) (hptr : q'.ptr = q.ptr + 16)
      (hrem : q'.rem.toNat + 16 = q.rem.toNat) (hn : 16 < q.rem.toNat)
  | tailLeave (hq : q.phase = .tail16) (hq' : q'.phase = .last16) (hptr : q'.ptr = q.ptr)
      (hrem : q'.rem.toNat = q.rem.toNat) (hn : q.rem.toNat ≤ 16)
  | last16 (hq : q.phase = .last16) (hq' : q'.phase = .final) (hptr : q'.ptr = q.ptr)
      (hrem : q'.rem.toNat = q.rem.toNat)

/-- What holds of PHASE, PTR and REM between the rows: the invariants of R89, with the length that leads to each
phase. -/
def RowInv (k : HashArgs) (q : Pipeline) : Prop :=
  match q.phase with
  | .init => True
  | .short => q.ptr = k.p0.toNat ∧ q.rem.toNat = k.len.toNat ∧ k.len.toNat ≤ 16
  | .bulk48 => q.ptr + q.rem.toNat = k.p0.toNat + k.len.toNat ∧ 16 < k.len.toNat ∧ 48 ≤ q.rem.toNat
  | .fold => q.ptr + q.rem.toNat = k.p0.toNat + k.len.toNat ∧ 16 < k.len.toNat
  | .tail16 => q.ptr + q.rem.toNat = k.p0.toNat + k.len.toNat ∧ 16 < k.len.toNat
  | .last16 => q.ptr + q.rem.toNat = k.p0.toNat + k.len.toNat ∧ 16 < k.len.toNat ∧ q.rem.toNat ≤ 16
  | .final => q.ptr + q.rem.toNat = k.p0.toNat + k.len.toNat

/-- As many rows as can come before FINAL. -/
def rowsLeft (k : HashArgs) (q : Pipeline) : Nat :=
  match q.phase with
  | .init => pipeRows k.len.toNat
  | .short => 1
  | .bulk48 => q.rem.toNat / 16 + 3
  | .fold => q.rem.toNat / 16 + 3
  | .tail16 => q.rem.toNat / 16 + 2
  | .last16 => 1
  | .final => 0

section

variable (m : Memory) {k : HashArgs} {q q' : Pipeline}

theorem rowInv_init (h : q.phase = .init) : RowInv k q := by simp only [RowInv, h]

/-- Every row before FINAL is one of the moves. -/
theorem pipeStep_rowMove (h : RowInv k q) (hne : q.phase ≠ .final) : RowMove k q (pipeStep m k q) := by
  cases hq : q.phase with
  | init =>
    by_cases h16 : k.len.toNat ≤ 16
    · rw [pipeStep_init_short hq h16]
      exact .initShort hq rfl rfl rfl h16
    by_cases h48 : 48 ≤ k.len.toNat
    · rw [pipeStep_init_bulk hq h48]
      exact .initBulk hq rfl rfl rfl h48
    · rw [pipeStep_init_tail hq (by omega) (by omega)]
      exact .initTail hq rfl rfl rfl (by omega)
  | short =>
    rw [pipeStep_short hq]
    exact .short hq rfl rfl rfl
  | bulk48 =>
    simp only [RowInv, hq] at h
    obtain ⟨-, -, hr⟩ := h
    have hphase := pipeStep_bulk48_phase (m := m) (k := k) hq hr
    have hpass := loopVarsOf_pipeStep_bulk48 (m := m) (k := k) hq hr
    have hptr : (pipeStep m k q).ptr = q.ptr + 48 := congrArg LoopVars.p hpass
    have hrem : (pipeStep m k q).rem.toNat = q.rem.toNat - 48 := congrArg LoopVars.i hpass
    by_cases hmore : 48 ≤ q.rem.toNat - 48
    · exact .bulkAgain hq (by rw [hphase, if_pos hmore]) hptr (by omega) (by omega)
    · exact .bulkLeave hq (by rw [hphase, if_neg hmore]) hptr (by omega) (by omega)
  | fold =>
    rw [pipeStep_fold hq]
    exact .fold hq rfl rfl rfl
  | tail16 =>
    by_cases hr : 16 < q.rem.toNat
    · have hsub : (q.rem - 16).toNat = q.rem.toNat - 16 := toNat_sub_small q.rem 16 (by decide) (by omega)
      rw [pipeStep_tail16_more hq hr]
      exact .tailAgain hq hq rfl (by simp only [hsub]; omega) hr
    · rw [pipeStep_tail16_leave hq (by omega)]
      exact .tailLeave hq rfl rfl rfl (by omega)
  | last16 =>
    rw [pipeStep_last16 hq]
    exact .last16 hq rfl rfl rfl
  | final => exact absurd hq hne

theorem RowMove.keeps_rowInv (hm : RowMove k q q') (h : RowInv k q) : RowInv k q' := by
  cases hm with
  | initShort hq hq' | initBulk hq hq' | initTail hq hq' | short hq hq' | bulkAgain hq hq' | bulkLeave hq hq'
  | fold hq hq' | tailAgain hq hq' | tailLeave hq hq' | last16 hq hq' =>
    simp only [RowInv, hq, hq'] at h ⊢
    omega

theorem RowMove.rowsLeft_lt (hm : RowMove k q q') : rowsLeft k q' < rowsLeft k q := by
  cases hm with
  | initShort hq hq' | initBulk hq hq' | initTail hq hq' | short hq hq' | bulkAgain hq hq' | bulkLeave hq hq'
  | fold hq hq' | tailAgain hq hq' | tailLeave hq hq' | last16 hq hq' =>
    simp only [rowsLeft, pipeRows, hq, hq']
    omega

theorem RowMove.phase_ne_init (hm : RowMove k q q') : q'.phase ≠ .init := by
  cases hm with
  | initShort hq hq' | initBulk hq hq' | initTail hq hq' | short hq hq' | bulkAgain hq hq' | bulkLeave hq hq'
  | fold hq hq' | tailAgain hq hq' | tailLeave hq hq' | last16 hq hq' =>
    simp only [hq', ne_eq, reduceCtorEq, not_false_eq_true]

theorem pipeStep_keeps_rowInv (h : RowInv k q) : RowInv k (pipeStep m k q) := by
  by_cases hq : q.phase = .final
  · rw [pipeStep_final hq]
    exact h
  · exact (pipeStep_rowMove m h hq).keeps_rowInv h

theorem pipeStep_phase_ne_init (h : RowInv k q) : (pipeStep m k q).phase ≠ .init := by
  by_cases hq : q.phase = .final
  · rw [pipeStep_final hq, hq]
    decide
  · exact (pipeStep_rowMove m h hq).phase_ne_init

/-- What holds at FINAL with any fuel, and of a row and one more unit of fuel when it holds after the row, holds of
every fuel that is enough for the rows left. -/
theorem pipe_induction {motive : Nat → Pipeline → Prop} (final : ∀ f q, q.phase = .final → motive f q)
    (row : ∀ f q, RowInv k q → q.phase ≠ .final → RowMove k q (pipeStep m k q) → motive f (pipeStep m k q) →
      motive (f + 1) q) {f : Nat} (h : RowInv k q) (hf : rowsLeft k q ≤ f) : motive f q := by
  induction f generalizing q with
  | zero =>
    by_cases hq : q.phase = .final
    · exact final 0 q hq
    · have := (pipeStep_rowMove m h hq).rowsLeft_lt
      omega
  | succ f ih =>
    by_cases hq : q.phase = .final
    · exact final (f + 1) q hq
    · have hm := pipeStep_rowMove m h hq
      have := hm.rowsLeft_lt
      exact row f q h hq hm (ih (pipeStep_keeps_rowInv m h) (by omega))

end

/-- The key's end stays where it is from the first row on. -/
theorem RowInv.end_eq {k : HashArgs} {q : Pipeline} (h : RowInv k q) (hne : q.phase ≠ .init) :
    q.ptr + q.rem.toNat = k.p0.toNat + k.len.toNat := by
  cases hq : q.phase with
  | init => exact absurd hq hne
  | short | bulk48 | fold | tail16 | last16 | final =>
    simp only [RowInv, hq] at h
    omega

/-- Settles O35. -/
theorem pipelineInvariants : Obligations.PipelineInvariants := by
  intro m k p j q
  have hprev : RowInv k ((pipeStep m k)^[j] { p with phase := .init }) :=
    Function.Iterate.rec (RowInv k) (rowInv_init rfl) (fun _ h => pipeStep_keeps_rowInv m h) j
  have hq : q = pipeStep m k ((pipeStep m k)^[j] { p with phase := .init }) := Function.iterate_succ_apply' _ _ _
  have hinv : RowInv k q := hq ▸ pipeStep_keeps_rowInv m hprev
  refine ⟨hinv.end_eq (hq ▸ pipeStep_phase_ne_init m hprev), fun hbulk => ?_, fun hlast => ?_⟩
  · simp only [RowInv, hbulk] at hinv
    obtain ⟨-, -, hrem⟩ := hinv
    exact hrem
  · simp only [RowInv, hlast] at hinv
    obtain ⟨-, hlen, hrem⟩ := hinv
    exact ⟨hrem, hlen⟩

/-! ### How often each row runs (R81, R82, R83) -/

/-- The rows BULK48 still to run. -/
def bulkLeft (k : HashArgs) (q : Pipeline) : Nat :=
  match q.phase with
  | .init => k.len.toNat / 48
  | .bulk48 => q.rem.toNat / 48
  | _ => 0

/-- The rows FOLD still to run. -/
def foldLeft (k : HashArgs) (q : Pipeline) : Nat :=
  match q.phase with
  | .init => if 48 ≤ k.len.toNat then 1 else 0
  | .bulk48 => 1
  | .fold => 1
  | _ => 0

/-- The rows TAIL16 that `r` bytes take, the one that leaves the loop among them. -/
def tailRows (r : Nat) : Nat := (r - 1) / 16 + 1

/-- The rows TAIL16 still to run. -/
def tailLeft (k : HashArgs) (q : Pipeline) : Nat :=
  match q.phase with
  | .init => if k.len.toNat ≤ 16 then 0 else tailRows (k.len.toNat % 48)
  | .bulk48 => tailRows (q.rem.toNat % 48)
  | .fold => tailRows q.rem.toNat
  | .tail16 => tailRows q.rem.toNat
  | _ => 0

/-- `left` counts the rows of phase `ph` to come: each move of the row takes one off, every other move none, and none
is left at FINAL. -/
structure CountsRows (k : HashArgs) (ph : Phase) (left : Pipeline → Nat) : Prop where
  final : ∀ q, q.phase = .final → left q = 0
  move : ∀ q q', RowInv k q → RowMove k q q' → left q = left q' + if q.phase = ph then 1 else 0

/-- With enough fuel the trace holds as many rows of a phase as are to come. -/
theorem CountsRows.count_pipeTrace {k : HashArgs} {ph : Phase} {left : Pipeline → Nat} (hc : CountsRows k ph left)
    (m : Memory) {f : Nat} {q : Pipeline} (h : RowInv k q) (hf : rowsLeft k q ≤ f) :
    (pipeTrace m k f q).count ph = left q := by
  refine pipe_induction m (motive := fun f q => (pipeTrace m k f q).count ph = left q) (fun f q hq => ?_)
    (fun f q hinv hne hm ih => ?_) h hf
  · rw [pipeTrace_final f hq, hc.final q hq, List.count_nil]
  · rw [pipeTrace_succ f hne, List.count_cons, ih, hc.move q _ hinv hm]
    simp only [beq_iff_eq]

theorem countsRows_bulk48 (k : HashArgs) : CountsRows k .bulk48 (bulkLeft k) where
  final q hq := by simp only [bulkLeft, hq]
  move q q' _ hm := by
    cases hm with
    | initBulk hq hq' hptr hrem hn => simp [bulkLeft, hq, hq', hrem]
    | initShort hq hq' hptr hrem hn | initTail hq hq' hptr hrem hn =>
      simp only [bulkLeft, hq, hq', reduceCtorEq, ↓reduceIte]
      omega
    | bulkAgain hq hq' hptr hrem hn | bulkLeave hq hq' hptr hrem hn =>
      simp only [bulkLeft, hq, hq', ↓reduceIte]
      omega
    | short hq hq' | fold hq hq' | tailAgain hq hq' | tailLeave hq hq' | last16 hq hq' => simp [bulkLeft, hq, hq']

theorem countsRows_fold (k : HashArgs) : CountsRows k .fold (foldLeft k) where
  final q hq := by simp only [foldLeft, hq]
  move q q' _ hm := by
    cases hm with
    | initBulk hq hq' hptr hrem hn => simp [foldLeft, hq, hq', hn]
    | initShort hq hq' hptr hrem hn | initTail hq hq' hptr hrem hn =>
      have hless : ¬ 48 ≤ k.len.toNat := by omega
      simp [foldLeft, hq, hq', hless]
    | bulkAgain hq hq' | bulkLeave hq hq' | short hq hq' | fold hq hq' | tailAgain hq hq' | tailLeave hq hq'
    | last16 hq hq' => simp [foldLeft, hq, hq']

theorem countsRows_tail16 (k : HashArgs) : CountsRows k .tail16 (tailLeft k) where
  final q hq := by simp only [tailLeft, hq]
  move q q' _ hm := by
    cases hm with
    | initShort hq hq' hptr hrem hn => simp [tailLeft, hq, hq', hn]
    | initBulk hq hq' hptr hrem hn =>
      have hlong : ¬ k.len.toNat ≤ 16 := by omega
      simp [tailLeft, hq, hq', hrem, hlong]
    | initTail hq hq' hptr hrem hn =>
      simp [tailLeft, hq, hq', hrem, Nat.not_le.mpr hn.1, Nat.mod_eq_of_lt hn.2]
    | bulkAgain hq hq' hptr hrem hn | bulkLeave hq hq' hptr hrem hn =>
      simp only [tailLeft, tailRows, hq, hq', reduceCtorEq, ↓reduceIte]
      omega
    | tailAgain hq hq' hptr hrem hn | tailLeave hq hq' hptr hrem hn =>
      simp only [tailLeft, tailRows, hq, hq', ↓reduceIte]
      omega
    | short hq hq' hptr hrem | fold hq hq' hptr hrem | last16 hq hq' hptr hrem => simp [tailLeft, hq, hq', hrem]

theorem pipeRun_reaches_final {m : Memory} {k : HashArgs} {f : Nat} {q : Pipeline} (h : RowInv k q)
    (hf : rowsLeft k q ≤ f) : (pipeRun m k f q).phase = .final := by
  refine pipe_induction m (motive := fun f q => (pipeRun m k f q).phase = .final) (fun f q hq => ?_)
    (fun f q _ hne _ ih => ?_) h hf
  · rw [pipeRun_final f hq, hq]
  · rw [pipeRun_succ f hne, ih]

/-- Settles O34: the three counts of the rows to come, read at INIT. -/
theorem pipelinePassCounts : Obligations.PipelinePassCounts := by
  intro m k p n r trace
  have hinv : RowInv k { p with phase := .init } := rowInv_init rfl
  refine ⟨pipeRun_reaches_final hinv (Nat.le_refl _), (countsRows_bulk48 k).count_pipeTrace m hinv (Nat.le_refl _),
    (countsRows_fold k).count_pipeTrace m hinv (Nat.le_refl _),
    ((countsRows_tail16 k).count_pipeTrace m hinv (Nat.le_refl _)).trans ?_⟩
  show (if n ≤ 16 then 0 else (r - 1) / 16 + 1) = _
  split
  · rfl
  · split <;> omega

/-! ### The bytes the rows read (R86) -/

/-- A byte is in one of the runs. -/
def InRuns (rs : List Span) (b : Nat) : Prop := ∃ r ∈ rs, r.addr ≤ b ∧ b < r.addr + r.n

@[simp] theorem inRuns_nil (b : Nat) : ¬ InRuns [] b := by simp [InRuns]

@[simp] theorem inRuns_cons (r : Span) (rs : List Span) (b : Nat) :
    InRuns (r :: rs) b ↔ (r.addr ≤ b ∧ b < r.addr + r.n) ∨ InRuns rs b := List.exists_mem_cons_iff _ _ _

@[simp] theorem inRuns_append (rs qs : List Span) (b : Nat) : InRuns (rs ++ qs) b ↔ InRuns rs b ∨ InRuns qs b := by
  simp only [InRuns, List.mem_append, or_and_right, exists_or]

/-- The rows from `q` on read byte `b`: what is left of the key, and the last 16 bytes of a long one, which LAST16
reads whether or not the loops did. -/
def ReadsFrom (k : HashArgs) (q : Pipeline) (b : Nat) : Prop :=
  match q.phase with
  | .init => k.p0.toNat ≤ b ∧ b < k.p0.toNat + k.len.toNat
  | .short => q.ptr ≤ b ∧ b < q.ptr + k.len.toNat
  | .bulk48 => q.ptr ≤ b ∧ b < q.ptr + q.rem.toNat
  | .fold => (q.ptr ≤ b ∨ q.ptr + q.rem.toNat ≤ b + 16) ∧ b < q.ptr + q.rem.toNat
  | .tail16 => (q.ptr ≤ b ∨ q.ptr + q.rem.toNat ≤ b + 16) ∧ b < q.ptr + q.rem.toNat
  | .last16 => q.ptr + q.rem.toNat ≤ b + 16 ∧ b < q.ptr + q.rem.toNat
  | .final => False

/-- The reads of the row SHORT cover a key of at most 16 bytes. -/
theorem inRuns_rowReads_short {k : HashArgs} {q : Pipeline} (hq : q.phase = .short) (hn : k.len.toNat ≤ 16)
    (b : Nat) : InRuns (rowReads k q) b ↔ q.ptr ≤ b ∧ b < q.ptr + k.len.toNat := by
  by_cases h4 : 4 ≤ k.len.toNat
  · simp only [rowReads, hq, if_pos h4, inRuns_cons, inRuns_nil, or_false, shortOffset]
    omega
  · by_cases h0 : 0 < k.len.toNat
    · simp only [rowReads, hq, if_neg h4, if_pos h0, inRuns_cons, inRuns_nil, or_false]
      omega
    · simp only [rowReads, hq, if_neg h4, if_neg h0, inRuns_nil, false_iff]
      omega

/-- What the rows from `q` on read is what its own row reads and what the rows after it do. -/
theorem RowMove.readsFrom_iff {k : HashArgs} {q q' : Pipeline} (hm : RowMove k q q') (h : RowInv k q) (b : Nat) :
    ReadsFrom k q b ↔ InRuns (rowReads k q) b ∨ ReadsFrom k q' b := by
  cases hm with
  | initShort hq hq' hptr hrem hn | initBulk hq hq' hptr hrem hn =>
    simp only [ReadsFrom, rowReads, hq, hq', hptr, hrem, inRuns_nil, false_or]
  | initTail hq hq' hptr hrem hn =>
    simp only [ReadsFrom, rowReads, hq, hq', hptr, hrem, inRuns_nil, false_or]
    omega
  | short hq hq' hptr hrem =>
    simp only [RowInv, hq] at h
    obtain ⟨-, -, hn⟩ := h
    simp only [inRuns_rowReads_short hq hn, ReadsFrom, hq, hq', or_false]
  | bulkAgain hq hq' hptr hrem hn | bulkLeave hq hq' hptr hrem hn =>
    simp only [ReadsFrom, rowReads, hq, hq', inRuns_cons, inRuns_nil, or_false]
    omega
  | fold hq hq' hptr hrem =>
    simp only [ReadsFrom, rowReads, hq, hq', hptr, hrem, inRuns_nil, false_or]
  | tailAgain hq hq' hptr hrem hn =>
    simp only [ReadsFrom, rowReads, hq, hq', if_pos hn, inRuns_cons, inRuns_nil, or_false]
    omega
  | tailLeave hq hq' hptr hrem hn =>
    simp only [ReadsFrom, rowReads, hq, hq', if_neg (Nat.not_lt.mpr hn), inRuns_nil, false_or]
    omega
  | last16 hq hq' hptr hrem =>
    simp only [RowInv, hq] at h
    simp only [ReadsFrom, rowReads, hq, hq', inRuns_cons, inRuns_nil, or_false]
    omega

theorem inRuns_pipeReads_iff {m : Memory} {k : HashArgs} {f : Nat} {q : Pipeline} (h : RowInv k q)
    (hf : rowsLeft k q ≤ f) (b : Nat) : InRuns (pipeReads m k f q) b ↔ ReadsFrom k q b := by
  refine pipe_induction m (motive := fun f q => InRuns (pipeReads m k f q) b ↔ ReadsFrom k q b) (fun f q hq => ?_)
    (fun f q hinv hne hm ih => ?_) h hf
  · simp only [pipeReads_final f hq, inRuns_nil, ReadsFrom, hq]
  · rw [pipeReads_succ f hne, inRuns_append, ih, hm.readsFrom_iff hinv]

/-- Settles O37: the rows from INIT on read the key. -/
theorem pipelineReadsExactlyTheKey : Obligations.PipelineReadsExactlyTheKey :=
  fun _ k p b => inRuns_pipeReads_iff (q := { p with phase := .init }) (rowInv_init (k := k) rfl) (Nat.le_refl _) b

end Sys2Proof.Machine

/-! ## Proofs: faults and the return from them (60_exceptions.md) -/

namespace Sys2Proof.Machine

/-! ### A fault is precise (R94) -/

/-- Settles O25: a commit records the fault of its verdict, which writes the record alone, or completes its command. -/
theorem everyCommitCompletesOrFaultsPrecisely : Obligations.EveryCommitCompletesOrFaultsPrecisely := by
  intro s
  rcases commit_verdict s with ⟨c, a, -, he⟩ | ⟨i, -, -, he⟩
  · exact ⟨_, he, .inr ⟨c, a, recordFault_faulted c a s, recordFault_frame [] c a s, rfl⟩⟩
  · exact ⟨_, he, .inl (completion_completed i s)⟩

/-! ### The first fault's record (R96) -/

theorem LifeCycleInv.idle_of_err {s : State} (h : LifeCycleInv s) (herr : s.status.err = true) :
    s.status.busy = false := by
  rw [Bool.eq_false_iff]
  intro hb
  cases herr.symm.trans (h.busy_alone hb).2

/-- `t` has ERR set and the fault record of `s`. -/
structure KeepsFault (s t : State) : Prop where
  err       : t.status.err = true
  cause     : t.status.cause = s.status.cause
  faultAddr : t.faultAddr = s.faultAddr
  faultCmd  : t.faultCmd = s.faultCmd

/-- Of the window writes only CLR and SRST touch the record of a fault: with ERR set no command is accepted (R96). -/
theorem writeReg_keepsFault {s : State} (herr : s.status.err = true) {v : Word} {r : WinReg}
    (hctrl : r = .ctrl → v.getLsbD 0 = false ∧ v.getLsbD 1 = false) : KeepsFault s (writeReg s v r) := by
  rcases writeReg_cases s v r with he | ⟨hr, hsrst, -⟩ | ⟨hr, -, hclr, -⟩ | ⟨-, hno, -⟩ | ⟨-, he⟩ | ⟨-, i, he⟩ |
    ⟨-, j, he⟩
  case inr.inl => cases hsrst.symm.trans (hctrl hr).2
  case inr.inr.inl => cases hclr.symm.trans (hctrl hr).1
  case inr.inr.inr.inl => cases herr.symm.trans hno
  all_goals
    rw [he]
    exact ⟨herr, rfl, rfl, rfl⟩

theorem drainWrite_keepsFault {s : State} (herr : s.status.err = true) (k : Nat) : KeepsFault s (drainWrite k s) := by
  rcases drainWrite_cases k s with he | ⟨w, -, he⟩ <;> rw [he] <;> exact ⟨herr, rfl, rfl, rfl⟩

/-- Settles O54: with ERR set no command runs, so nothing commits, and of the turns left only the resets and CLR write
the record. -/
theorem firstFaultIsKept : Obligations.FirstFaultIsKept := by
  intro s t hi herr hreset hctrl hstep
  have hidle := hi.cycle.idle_of_err herr
  obtain ⟨sch, turned⟩ := step_cases hstep
  have hkeeps : KeepsFault s t := by
    cases turned with
    | commit hb _ => cases hb.symm.trans hidle
    | window addr width off v rest turn ho =>
      have hbits (hr : windowReg off = .ctrl) : v.getLsbD 0 = false ∧ v.getLsbD 1 = false :=
        hctrl rest addr width v turn (windowReg_eq_ctrl.mp hr ▸ ho)
      exact { writeReg_keepsFault (s := { s with schedule := sch }) herr hbits with }
    | drain k => exact { drainWrite_keepsFault (s := { s with schedule := sch }) herr k with }
    | reset rest turn => exact absurd turn (hreset rest)
    | look | write | post => exact ⟨herr, rfl, rfl, rfl⟩
  exact ⟨hkeeps.err, hkeeps.cause, hkeeps.faultAddr, hkeeps.faultCmd⟩

/-! ### The return from a fault (R95) -/

theorem writeCtrl_clear {v : Word} (hclr : v.getLsbD 0 = true) (hsrst : v.getLsbD 1 = false) (s : State) :
    writeCtrl v s = clearFault s := by
  rw [writeCtrl, hclr, hsrst]
  rfl

/-- Settles O45: the write is `clearFault`, which leaves ERR = 0 and BUSY alone, so an idle engine accepts the next
CMD write. -/
theorem clearRule : Obligations.ClearRule := by
  intro s rest v hc hclr hsrst hs
  have hstep : step s = .next (clearFault { s with schedule := rest }) := by
    rw [step_write_at hc (by decide) (by decide) hs, windowReg_ctrl]
    exact congrArg _ (writeCtrl_clear hclr hsrst _)
  refine ⟨hstep, fun w rest' hidle hrest => ?_⟩
  have haccept := (cmdWriteRule (clearFault { s with schedule := rest }) rest' w hc hrest).1 ⟨hidle, rfl⟩
  exact ⟨_, (run_next hstep 1).trans (run_next haccept 0), rfl, rfl⟩

/-! ### An idle engine (R100) -/

theorem step_empty_idle {s : State} (hs : s.schedule = []) (hb : s.status.busy = false) :
    step s = .fault .quiescent := by
  simp [step, hs, noTurn, hb]

theorem step_engine_idle {s : State} {rest : List Turn} (hs : s.schedule = .engine :: rest)
    (hb : s.status.busy = false) : step s = .fault .engineIdle := by
  simp [step, hs, takeTurn, engineStep, hb]

/-- Settles O56. -/
theorem idleEngineHasNoStep : Obligations.IdleEngineHasNoStep := fun _ hb =>
  ⟨fun hs => step_empty_idle hs hb, fun _ hs => step_engine_idle hs hb⟩

end Sys2Proof.Machine

/-! ## Proofs: reset and power-on (70_reset_and_hazards.md) -/

namespace Sys2Proof.Machine

/-! ### The two resets (R102, R103) -/

/-- Whatever CLR is: SRST wins (10_state.md R21). -/
theorem writeCtrl_softReset {v : Word} (hsrst : v.getLsbD 1 = true) (s : State) : writeCtrl v s = resetEngine s :=
  if_pos hsrst

theorem step_hardReset {s : State} {rest : List Turn} (hs : s.schedule = .reset :: rest) :
    step s = .next (resetEngine { s with schedule := rest }) := by
  simp only [step, hs, takeTurn]

theorem step_softReset {s : State} {rest : List Turn} {v : Word} (hc : s.config.wellFormed = true)
    (hsrst : v.getLsbD 1 = true) (hs : s.schedule = .host (.write (windowAddr s.config 0x00) 8 v) :: rest) :
    step s = .next (resetEngine { s with schedule := rest }) := by
  rw [step_write_at hc (by decide) (by decide) hs, windowReg_ctrl]
  exact congrArg _ (writeCtrl_softReset hsrst _)

/-- Settles O46: either turn is `resetEngine`. -/
theorem bothResetsReachTheResetState : Obligations.BothResetsReachTheResetState := by
  intro s rest v hc hturn
  have hstep : step s = .next (resetEngine { s with schedule := rest }) := by
    rcases hturn with hs | ⟨hsrst, hs⟩
    · exact step_hardReset hs
    · exact step_softReset hc hsrst hs
  exact ⟨_, hstep, rfl, fun i => Vector.getElem_replicate i.isLt, rfl, rfl, rfl, rfl, fun _ => rfl, rfl, rfl, rfl⟩

/-! ### Power-on (R102) -/

/-- Memory is empty, nothing is held back, the engine is idle with no fault recorded, and PTR is 0. -/
theorem inv_powerOn {c : Config} (hc : c.wellFormed = true) : Inv (State.powerOn c) where
  platform := hc
  memory := ⟨rfl, nofun, nofun⟩
  cycle := lifeCycleInv_of_idle rfl rfl rfl rfl rfl rfl
  pointer := Nat.two_pow_pos c.addrW

/-- Settles O58. -/
theorem powerOnMeetsTheInvariant : Obligations.PowerOnMeetsTheInvariant :=
  ⟨fun _ => inv_powerOn, inv_powerOn (by decide)⟩

end Sys2Proof.Machine
